-- ==== Sys2Proof/Word.lean ====
section
/-! DEFINITION. The word type: every register, memory cell, operand and address is one byte (00_scope.md R8; 20_memory.md R44). -/

namespace Sys2Proof

/-- An unsigned 8-bit value, bit 0 the least significant (R8). Addresses in registers and in the pc are bytes too (R41). -/
abbrev Byte := BitVec 8

end Sys2Proof
end

