-- ==== Sys2Proof/Config.lean ====
section
/-! DEFINITION. The implementation parameters of 00_scope.md R6 and R7. -/

namespace Sys2Proof

/-- `NREG`: the number of general registers (R6). -/
abbrev Config.nreg : Nat := 8

/-- `MEM_SIZE`: the number of bytes of memory, at addresses 0 to 255 (R6, R40). -/
abbrev Config.memSize : Nat := 256

/-- `SP_RESET`: what R7 holds after reset (R6, R30). -/
abbrev Config.spReset : Byte := 0xF4#8

/-- `PC_RESET`: what the pc holds after reset (R6, R30). -/
abbrev Config.pcReset : Byte := 0x00#8

/-- `VECTOR_BASE`: the address of interrupt 0's vector slot (R7, R140; the spec's decision D11). -/
abbrev Config.vectorBase : Nat := 0xF8

/-- `NUM_INT`: how many interrupt numbers have a vector slot (R7, R140; the spec's decision D11). -/
abbrev Config.numInt : Nat := 8

/-- `GPR_RESET`'s reference value: R0 to R6 zero (R7, D14). The parameter itself is OPEN, and
`Machine.State.resetWith` takes it as an argument.
DESIGN CHOICE (log entry 1, unsafe): `Machine.State.reset` uses this value, which the spec leaves open. -/
def Config.gprReference : Vector Byte 7 := Vector.replicate 7 0#8

/-- `CHARSET`: the character the output device shows for a PRA byte (R7, R110). OPEN: it has no body, so nothing can
be proved about any value of it (log entry 6). -/
opaque Config.charset : Byte → Char

end Sys2Proof
end

