-- ==== Sys2Proof/Syntax.lean ====
section
/-! DEFINITION. The instructions (30_encoding.md R68, R70), one constructor a row of the opcode table. -/

namespace Sys2Proof

/-- An instruction with its operand bytes as they stand in memory: `a` is the first operand byte and `b` the second (R11).
A register operand is kept as the whole byte, because R66 compares the whole byte and reports it when it names no
register; the check itself is made where the instruction executes (R80; log entry 11). -/
inductive Instr where
  /-- LDI: x[a] takes the immediate byte (R100). -/
  | ldi (a imm : Byte)
  /-- LD: x[a] takes the byte at the address x[b] (R101). -/
  | ld (a b : Byte)
  /-- ST: the byte at the address x[a] takes x[b] (R102). -/
  | st (a b : Byte)
  /-- PRN: emit x[a] as a decimal number (R111). -/
  | prn (a : Byte)
  /-- PRA: emit x[a] as a character (R112). -/
  | pra (a : Byte)
  /-- PUSH (R122). -/
  | push (a : Byte)
  /-- POP (R123). -/
  | pop (a : Byte)
  /-- CALL the subroutine at x[a] (R130). -/
  | call (a : Byte)
  /-- RET from a subroutine (R131). -/
  | ret
  /-- INT: raise the software interrupt whose number is x[a] (R141). -/
  | int (a : Byte)
  /-- IRET: return from an interrupt handler (R142). -/
  | iret
  /-- JMP to x[a] (R150). -/
  | jmp (a : Byte)
  /-- JEQ: jump when E is set (R151). -/
  | jeq (a : Byte)
  /-- JNE: jump when E is clear (R152). -/
  | jne (a : Byte)
  /-- JGT: jump when G is set (R153). -/
  | jgt (a : Byte)
  /-- JLT: jump when L is set (R154). -/
  | jlt (a : Byte)
  /-- ADD (R161). -/
  | add (a b : Byte)
  /-- SUB (R162). -/
  | sub (a b : Byte)
  /-- MUL (R163). -/
  | mul (a b : Byte)
  /-- DIV (R164). -/
  | div (a b : Byte)
  /-- MOD (R165). -/
  | mod (a b : Byte)
  /-- INC (R166). -/
  | inc (a : Byte)
  /-- DEC (R167). -/
  | dec (a : Byte)
  /-- CMP (R168). -/
  | cmp (a b : Byte)
  /-- AND (R169). -/
  | and (a b : Byte)
  /-- OR (R170). -/
  | or (a b : Byte)
  /-- XOR (R171). -/
  | xor (a b : Byte)
  /-- NOT (R172). -/
  | not (a : Byte)
  /-- HLT (R190). -/
  | hlt
  deriving DecidableEq, Repr

/-- The operand bytes whose kind is `reg`, a before b (R68). LDI's second operand is an immediate. -/
def Instr.regOperands : Instr → List Byte
  | .ldi a _ => [a]
  | .ld a b | .st a b => [a, b]
  | .prn a | .pra a | .push a | .pop a | .call a | .int a => [a]
  | .ret | .iret | .hlt => []
  | .jmp a | .jeq a | .jne a | .jgt a | .jlt a => [a]
  | .add a b | .sub a b | .mul a b | .div a b | .mod a b | .cmp a b => [a, b]
  | .and a b | .or a b | .xor a b => [a, b]
  | .inc a | .dec a | .not a => [a]

end Sys2Proof
end

