-- ==== Sys2Proof/WellFormed.lean ====
section
/-! DEFINITION. Which instructions are well formed: every register operand names one of R0 to R7 (30_encoding.md R66, R67). -/

namespace Sys2Proof

/-- A `reg` operand byte must lie in 0..7, and the whole byte is compared (R66). -/
def isRegister (a : Byte) : Bool := a.toNat < Config.nreg

/-- Every register operand names a register. An immediate operand is never checked (R67). -/
def Instr.wf (i : Instr) : Bool := i.regOperands.all isRegister

end Sys2Proof
end

