-- ==== Sys2Proof/Decode.lean ====
section
/-! DEFINITION. The opcode map, the decoder and the encoder (30_encoding.md R60-R73).
Decoding reads the opcode byte alone to find the instruction and its length, and then takes its operand bytes (R60, R84).
The map's byte values are the spec's decision D1 (log entry 12). -/

namespace Sys2Proof

/-! ### The opcode byte's fields (R61) -/

/-- `op[7:6]`: the number of operand bytes. -/
def countField (op : Byte) : Nat := (op.extractLsb' 6 2).toNat

/-- `op[5]`: the instruction is handled by the ALU. -/
def aluField (op : Byte) : Bool := op.getLsbD 5

/-- `op[4]`: the instruction writes FL. -/
def setsFlagsField (op : Byte) : Bool := op.getLsbD 4

/-- `op[3:0]`: the identifier within the class. -/
def idField (op : Byte) : Nat := (op.extractLsb' 0 4).toNat

/-! ### Descriptors (R64) -/

/-- The 29 mnemonics, in the order of R70. -/
inductive Mnemonic where
  | LDI | LD | ST | PRN | PRA | PUSH | POP | CALL | RET | INT | IRET
  | JMP | JEQ | JNE | JGT | JLT
  | ADD | SUB | MUL | DIV | MOD | INC | DEC | CMP | AND | OR | XOR | NOT | HLT
  deriving DecidableEq, Repr

/-- The two kinds of operand byte (R65). -/
inductive OperandKind where
  | reg
  | imm8
  deriving DecidableEq, Repr

/-- How an execution that does not fault leaves the pc (R82, R83, R190). -/
inductive PcRule where
  /-- the generic advancement, always -/
  | advances
  /-- every execution assigns the pc: JMP, CALL, RET, INT, IRET -/
  | assigns
  /-- assigns the pc when taken, advances when not: JEQ, JNE, JGT, JLT -/
  | assignsWhenTaken
  /-- HLT: the pc stays -/
  | stays
  deriving DecidableEq, Repr

/-- The record decode looks up for an opcode byte (R64). -/
structure Descriptor where
  operandCount : Nat
  isALUOp : Bool
  setsFlags : Bool
  mnemonic : Mnemonic
  kinds : List OperandKind
  pcRule : PcRule
  deriving DecidableEq, Repr

/-- How an instruction is made from its operand bytes. -/
inductive Form where
  | noOperand (i : Instr)
  | oneOperand (mk : Byte → Instr)
  | twoOperands (mk : Byte → Byte → Instr)

/-- One row of the opcode map. -/
structure Row where
  opcode : Byte
  mnemonic : Mnemonic
  form : Form
  kinds : List OperandKind
  pcRule : PcRule

/-- Data movement and output rows of R70, with the operand shapes of R68. -/
def rowsDataAndOutput : List Row :=
  [ ⟨0x82#8, .LDI, .twoOperands .ldi, [.reg, .imm8], .advances⟩,
    ⟨0x83#8, .LD, .twoOperands .ld, [.reg, .reg], .advances⟩,
    ⟨0x84#8, .ST, .twoOperands .st, [.reg, .reg], .advances⟩,
    ⟨0x47#8, .PRN, .oneOperand .prn, [.reg], .advances⟩,
    ⟨0x48#8, .PRA, .oneOperand .pra, [.reg], .advances⟩ ]

/-- Stack, subroutine, interrupt, jump and halt rows of R70. -/
def rowsControl : List Row :=
  [ ⟨0x45#8, .PUSH, .oneOperand .push, [.reg], .advances⟩,
    ⟨0x46#8, .POP, .oneOperand .pop, [.reg], .advances⟩,
    ⟨0x40#8, .CALL, .oneOperand .call, [.reg], .assigns⟩,
    ⟨0x02#8, .RET, .noOperand .ret, [], .assigns⟩,
    ⟨0x42#8, .INT, .oneOperand .int, [.reg], .assigns⟩,
    ⟨0x13#8, .IRET, .noOperand .iret, [], .assigns⟩,
    ⟨0x44#8, .JMP, .oneOperand .jmp, [.reg], .assigns⟩,
    ⟨0x49#8, .JEQ, .oneOperand .jeq, [.reg], .assignsWhenTaken⟩,
    ⟨0x4A#8, .JNE, .oneOperand .jne, [.reg], .assignsWhenTaken⟩,
    ⟨0x4B#8, .JGT, .oneOperand .jgt, [.reg], .assignsWhenTaken⟩,
    ⟨0x4C#8, .JLT, .oneOperand .jlt, [.reg], .assignsWhenTaken⟩,
    ⟨0x01#8, .HLT, .noOperand .hlt, [], .stays⟩ ]

/-- The twelve ALU rows of R70. -/
def rowsAlu : List Row :=
  [ ⟨0xA0#8, .ADD, .twoOperands .add, [.reg, .reg], .advances⟩,
    ⟨0xA1#8, .SUB, .twoOperands .sub, [.reg, .reg], .advances⟩,
    ⟨0xA2#8, .MUL, .twoOperands .mul, [.reg, .reg], .advances⟩,
    ⟨0xA3#8, .DIV, .twoOperands .div, [.reg, .reg], .advances⟩,
    ⟨0xA4#8, .MOD, .twoOperands .mod, [.reg, .reg], .advances⟩,
    ⟨0x65#8, .INC, .oneOperand .inc, [.reg], .advances⟩,
    ⟨0x66#8, .DEC, .oneOperand .dec, [.reg], .advances⟩,
    ⟨0xB7#8, .CMP, .twoOperands .cmp, [.reg, .reg], .advances⟩,
    ⟨0xA8#8, .AND, .twoOperands .and, [.reg, .reg], .advances⟩,
    ⟨0xAA#8, .OR, .twoOperands .or, [.reg, .reg], .advances⟩,
    ⟨0xAB#8, .XOR, .twoOperands .xor, [.reg, .reg], .advances⟩,
    ⟨0x69#8, .NOT, .oneOperand .not, [.reg], .advances⟩ ]

/-- The opcode map (R70): all 29 rows. -/
def opcodeMap : List Row := rowsDataAndOutput ++ rowsControl ++ rowsAlu

/-- The row of an opcode byte, looked up on the full 8 bits (R64); none for the 227 illegal bytes (R72). -/
def findRow (op : Byte) : Option Row := opcodeMap.find? fun r => r.opcode == op

/-- The descriptor of an opcode byte: the counts and marks come from its fields, the rest from its row (R64). -/
def classify (op : Byte) : Option Descriptor :=
  (findRow op).map fun r =>
    { operandCount := countField op, isALUOp := aluField op, setsFlags := setsFlagsField op,
      mnemonic := r.mnemonic, kinds := r.kinds, pcRule := r.pcRule }

/-! ### Decoding -/

/-- Why bytes spell no instruction. -/
inductive DecodeError where
  /-- there is no opcode byte at all -/
  | noBytes
  /-- the opcode byte is no row of R70 (R72, R84): a decode fault when it is fetched -/
  | noInstruction (op : Byte)
  /-- the bytes end before the instruction's operands do (R81); `got` are the operand bytes that are there -/
  | missingOperand (op : Byte) (got : List Byte)
  deriving DecidableEq, Repr

/-- The instruction of an opcode byte and the bytes after it, with the bytes left over. The opcode is looked up before
any operand byte is looked at (R84, D23). -/
def decodeFrom (op : Byte) (rest : List Byte) : Except DecodeError (Instr × List Byte) :=
  match findRow op with
  | none => .error (.noInstruction op)
  | some row =>
    match row.form, rest with
    | .noOperand i, rest => .ok (i, rest)
    | .oneOperand mk, a :: rest => .ok (mk a, rest)
    | .twoOperands mk, a :: b :: rest => .ok (mk a b, rest)
    | .oneOperand _, [] => .error (.missingOperand op [])
    | .twoOperands _, got => .error (.missingOperand op got)

/-- The instruction at the head of any bytes, with the bytes after it. -/
def decode : List Byte → Except DecodeError (Instr × List Byte)
  | [] => .error .noBytes
  | op :: rest => decodeFrom op rest

/-! ### Encoding -/

/-- The opcode byte of an instruction, from the table of R70. -/
def opcodeByte : Instr → Byte
  | .ldi _ _ => 0x82#8
  | .ld _ _ => 0x83#8
  | .st _ _ => 0x84#8
  | .prn _ => 0x47#8
  | .pra _ => 0x48#8
  | .push _ => 0x45#8
  | .pop _ => 0x46#8
  | .call _ => 0x40#8
  | .ret => 0x02#8
  | .int _ => 0x42#8
  | .iret => 0x13#8
  | .jmp _ => 0x44#8
  | .jeq _ => 0x49#8
  | .jne _ => 0x4A#8
  | .jgt _ => 0x4B#8
  | .jlt _ => 0x4C#8
  | .add _ _ => 0xA0#8
  | .sub _ _ => 0xA1#8
  | .mul _ _ => 0xA2#8
  | .div _ _ => 0xA3#8
  | .mod _ _ => 0xA4#8
  | .inc _ => 0x65#8
  | .dec _ => 0x66#8
  | .cmp _ _ => 0xB7#8
  | .and _ _ => 0xA8#8
  | .or _ _ => 0xAA#8
  | .xor _ _ => 0xAB#8
  | .not _ => 0x69#8
  | .hlt => 0x01#8

/-- The operand bytes of an instruction, a before b (R60, R68). -/
def operandBytes : Instr → List Byte
  | .ldi a b | .ld a b | .st a b => [a, b]
  | .prn a | .pra a | .push a | .pop a | .call a | .int a => [a]
  | .ret | .iret | .hlt => []
  | .jmp a | .jeq a | .jne a | .jgt a | .jlt a => [a]
  | .add a b | .sub a b | .mul a b | .div a b | .mod a b | .cmp a b => [a, b]
  | .and a b | .or a b | .xor a b => [a, b]
  | .inc a | .dec a | .not a => [a]

/-- An instruction's bytes at consecutive addresses: the opcode, then its operands (R60, R74). -/
def encode (i : Instr) : List Byte := opcodeByte i :: operandBytes i

/-- An instruction's length in bytes, found from its first byte alone (R60). -/
def lengthOf (op : Byte) : Nat := countField op + 1

/-! ### The opcode table's words -/

/-- The three bytes of a table word: bit 0 of the word is bit 0 of the first byte, and every bit from `nbits` up is 0. -/
def tableBytes (nbits w : Nat) : List Byte :=
  let v := w % 2 ^ nbits
  [BitVec.ofNat 8 v, BitVec.ofNat 8 (v / 256), BitVec.ofNat 8 (v / 65536)]

/-- What the decoder reads from a table word; none where it refuses. -/
def decodeTableWord (nbits w : Nat) : Option Instr :=
  match decode (tableBytes nbits w) with
  | .ok (i, _) => some i
  | .error _ => none

end Sys2Proof
end

