-- ==== Sys2Proof/Machine/State.lean ====
section
/-! DEFINITION. The complete state of one machine (10_state.md R20-R30; 20_memory.md R40), and the machine after reset. -/

namespace Sys2Proof.Machine

/-- The index of a general register, R0 to R7 (R20). -/
abbrev RegIdx := Fin 8

/-- R7 is the stack pointer (R22). -/
abbrev SP : RegIdx := 7

/-- The flags register's three flags (R24). Their places in the byte that INT pushes are in `Flags.toByte`. -/
structure Flags where
  e : Bool
  g : Bool
  l : Bool
  deriving DecidableEq, Repr

/-- `FL_RESET`: E = L = G = 0 (R7, R30). -/
abbrev Flags.clear : Flags := ⟨false, false, false⟩

/-- The run status (R26). -/
inductive Status where
  | running
  /-- entered by HLT; terminal, no fault payload -/
  | halted
  /-- entered by any fault; terminal -/
  | faulted
  deriving DecidableEq, Repr

/-- The three fault kinds (R200). -/
inductive FaultKind where
  | decode
  | addressing
  | numeric
  deriving DecidableEq, Repr

/-- The sub-cause of an addressing fault; `noCause` for the other kinds (R27, R202). -/
inductive FaultCause where
  | noCause
  | fetch
  | regIndex
  | pcAdvance
  | returnAddress
  | vector
  deriving DecidableEq, Repr

/-- The fault record (R27). -/
structure FaultRecord where
  kind : FaultKind
  cause : FaultCause
  /-- `at`: the address of the faulting instruction's opcode -/
  addr : Byte
  opcode : Byte
  /-- the operand bytes fetched before the fault -/
  operands : List Byte
  /-- the offending address, which can exceed 255, or the offending register index -/
  detail : Nat
  deriving DecidableEq, Repr

/-- One event sent to the output port (R28, R110). -/
inductive OutEvent where
  | prn (v : Byte)
  | pra (v : Byte)
  deriving DecidableEq, Repr

/-- Memory as the list of its bytes that are not 0, addresses strictly rising (`Memory.wf`). -/
abbrev Memory := List Host.Cell

/-- The whole state of one machine (10_state.md). Nothing else is state (R29). -/
structure State where
  /-- R0 to R7 (R20); R7 is SP (R22) -/
  regs : Vector Byte 8
  /-- the program counter (R23) -/
  pc : Byte
  /-- the flags register (R24) -/
  fl : Flags
  /-- the 256 bytes of memory (R40) -/
  mem : Memory
  /-- the run status (R26) -/
  status : Status
  /-- the fault record, none until a fault writes it (R27, R30; log entry 5) -/
  fault : Option FaultRecord
  /-- the output trace, oldest event first (R28) -/
  out : List OutEvent
  deriving DecidableEq, Repr

/-- Reset (R30, R230) for any value of the OPEN parameter `GPR_RESET`, which fills R0 to R6, and of `FL_RESET`. -/
def State.resetWith (gpr : Vector Byte 7) (fl : Flags) : State :=
  { regs := gpr.push Config.spReset, pc := Config.pcReset, fl := fl, mem := [],
    status := .running, fault := none, out := [] }

/-- The machine right after reset (R30), with the reference value of `GPR_RESET`.
DESIGN CHOICE (log entry 1, unsafe): R0 to R6 are 0, where the spec leaves the parameter open. -/
def State.reset : State := State.resetWith Config.gprReference Flags.clear

/-- Why a step would end with a fault outside the state: never, so there is no constructor. Nothing raises one. Every
fault of 60_exceptions.md leaves a state the spec gives (R13, R204), and the model takes it as a next state whose status is
FAULTED and whose record says why (DEDUCED, log entry 3; safe). -/
inductive Fault where
  deriving DecidableEq, Repr

/-- Why an instruction has no meaning in the model. -/
inductive Refusal where
  /-- Raised by an arm of `exec` whose instruction is not modelled; no arm of this model does, so it is never raised. Safe. -/
  | notModelled (mnemonic : String)
  deriving DecidableEq, Repr

/-- The outcome of executing one instruction. -/
abbrev Result := Host.Outcome State Fault Refusal

end Sys2Proof.Machine
end

