-- ==== Sys2Proof/Machine/Flags.lean ====
section
/-! DEFINITION. The flags register's byte image (10_state.md R24) and the compare that sets it (46_alu.md R168). -/

namespace Sys2Proof.Machine

/-- The byte INT pushes, with L, G, E in bits 2, 1, 0 and zeros above (R24; the spec's decision D12). -/
def Flags.toByte (f : Flags) : Byte :=
  (0#5 ++ BitVec.ofBool f.l ++ BitVec.ofBool f.g ++ BitVec.ofBool f.e : BitVec 8)

/-- What IRET loads from a popped byte: bits 2-0; bits 7-3 are dropped (R142). -/
def Flags.ofByte (t : Byte) : Flags := ⟨t.getLsbD 0, t.getLsbD 1, t.getLsbD 2⟩

/-- CMP's flags: all three written, by unsigned order (R168; 90_conflicts.md C4). -/
def Flags.compare (x y : Byte) : Flags :=
  ⟨x.toNat = y.toNat, x.toNat > y.toNat, x.toNat < y.toNat⟩

end Sys2Proof.Machine
end

