-- ==== Sys2Proof/Machine/Ops.lean ====
section
/-! DEFINITION. The named operations the instructions are written over: registers, memory, the stack, the output port,
the pc's advancement, taking a fault, entering an interrupt and returning from one. -/

namespace Sys2Proof.Machine

/-! ### Memory (20_memory.md R40-R43) -/

/-- What an address that is not listed reads as: memory is zero-initialized (R30, R40). -/
abbrev Memory.unlisted : Byte := 0#8

/-- The canonical form: addresses strictly rising and inside memory, and no entry equal to what an unlisted address reads as. -/
def Memory.wf (m : Memory) : Bool :=
  decide (m.Pairwise (fun c d => c.1 < d.1)) && m.all fun c => c.1 < Config.memSize && c.2 != Memory.unlisted

/-- `MemRead(n, 1)` (R41). -/
def Memory.read : Memory → Nat → Byte
  | [], _ => Memory.unlisted
  | (k, v) :: m, n => if k = n then v else Memory.read m n

/-- `MemWrite(n, 1, v)` (R41), keeping the canonical form: writing what an unlisted address reads as removes the entry. -/
def Memory.write : Memory → Nat → Byte → Memory
  | [], n, v => if v = Memory.unlisted then [] else [(n, v)]
  | (k, w) :: m, n, v =>
    if n < k then
      if v = Memory.unlisted then (k, w) :: m else (n, v) :: (k, w) :: m
    else if k = n then
      if v = Memory.unlisted then m else (n, v) :: m
    else (k, w) :: Memory.write m n v

/-- The byte at an address held in a register or in the pc; such an address always exists (R41). -/
def State.read (s : State) (addr : Byte) : Byte := s.mem.read addr.toNat

/-- Write one byte; nothing else changes (R43). -/
def State.write (s : State) (addr v : Byte) : State := { s with mem := s.mem.write addr.toNat v }

/-! ### Registers, flags, pc, status and output -/

/-- `x[r]` (R9). -/
def State.reg (s : State) (r : RegIdx) : Byte := s.regs[r.val]

/-- `x[r] <- v` (R9). No register is hardwired (R20). -/
def State.setReg (s : State) (r : RegIdx) (v : Byte) : State := { s with regs := s.regs.set r.val v }

/-- `pc <- target` (R9). -/
def State.setPc (s : State) (target : Byte) : State := { s with pc := target }

/-- Write all three flags. -/
def State.setFlags (s : State) (f : Flags) : State := { s with fl := f }

/-- `Emit`: append one event to the output trace (R28, R110). -/
def State.emit (s : State) (e : OutEvent) : State := { s with out := s.out ++ [e] }

/-- Enter HALTED (R26, R190). -/
def State.halt (s : State) : State := { s with status := .halted }

/-! ### The stack (42_stack.md R120, R121) -/

/-- `PushVal(v)`: decrement SP, then write v at the new SP (R120). SP wraps and is never checked (R124). -/
def State.pushVal (s : State) (v : Byte) : State :=
  let w := s.setReg SP (s.reg SP - 1)
  w.write (w.reg SP) v

/-- `PushReg(i)`: the same with x[i], read after the decrement (R120, R10). -/
def State.pushReg (s : State) (r : RegIdx) : State :=
  let w := s.setReg SP (s.reg SP - 1)
  w.write (w.reg SP) (w.reg r)

/-- `PopReg(i)`: the byte at SP into x[i], then increment x[7], read after that write (R121, R10). -/
def State.popReg (s : State) (r : RegIdx) : State :=
  let w := s.setReg r (s.read (s.reg SP))
  w.setReg SP (w.reg SP + 1)

/-- `PopVal()`: the byte at SP, and the state with SP incremented (R121). -/
def State.popVal (s : State) : Byte × State :=
  (s.read (s.reg SP), s.setReg SP (s.reg SP + 1))

/-! ### Taking a fault (00_scope.md R13; 60_exceptions.md R200-R204) -/

/-- The faults a step can raise, with what each reports (R200, R202). -/
inductive Raise where
  | decode
  | fetch (addr : Nat)
  | regIndex (byte : Byte)
  | pcAdvance (addr : Nat)
  | returnAddress (addr : Nat)
  | vector (addr : Nat)
  | numeric
  deriving DecidableEq, Repr

/-- The kind of a fault (R200). -/
def Raise.kind : Raise → FaultKind
  | .decode => .decode
  | .fetch _ | .regIndex _ | .pcAdvance _ | .returnAddress _ | .vector _ => .addressing
  | .numeric => .numeric

/-- The cause of a fault (R202). -/
def Raise.cause : Raise → FaultCause
  | .decode | .numeric => .noCause
  | .fetch _ => .fetch
  | .regIndex _ => .regIndex
  | .pcAdvance _ => .pcAdvance
  | .returnAddress _ => .returnAddress
  | .vector _ => .vector

/-- The detail of a fault (R202): the offending address or register index, 0 when the kind has none. -/
def Raise.detail : Raise → Nat
  | .decode | .numeric => 0
  | .fetch n | .pcAdvance n | .returnAddress n | .vector n => n
  | .regIndex b => b.toNat

/-- The record of a fault at an instruction's address, with its opcode and the operand bytes fetched so far (R27). -/
def Raise.record (r : Raise) (addr opcode : Byte) (operands : List Byte) : FaultRecord :=
  { kind := r.kind, cause := r.cause, addr := addr, opcode := opcode, operands := operands, detail := r.detail }

/-- Taking a fault: FAULTED, and the record; nothing else changes (R13, R204). It is applied to the state the step began
with, so every effect of the faulting instruction is thrown away (R12). -/
def State.takeFault (s : State) (f : FaultRecord) : State := { s with status := .faulted, fault := some f }

/-- `raise` from an instruction whose bytes have all been fetched. -/
def raise (i : Instr) (s : State) (r : Raise) : Result :=
  .next (s.takeFault (r.record s.pc (opcodeByte i) (operandBytes i)))

/-! ### Ending an instruction (30_encoding.md R80, R83) -/

/-- The generic advancement: commit the working copy `w` at pc + count + 1, or fault when that leaves memory, and then
commit nothing (R83). `s` is the state the instruction began with. -/
def advance (i : Instr) (s w : State) : Result :=
  let target := s.pc.toNat + lengthOf (opcodeByte i)
  if target < Config.memSize then .next (w.setPc (BitVec.ofNat 8 target))
  else raise i s (.pcAdvance target)

/-- The return address of CALL and INT, the next instruction's, which must fit the one byte that is pushed (R130, R141). -/
def withReturnAddress (i : Instr) (s : State) (k : Byte → Result) : Result :=
  let ret := s.pc.toNat + lengthOf (opcodeByte i)
  if ret < Config.memSize then k (BitVec.ofNat 8 ret) else raise i s (.returnAddress ret)

/-! ### Taking an interrupt, and returning from one (44_interrupt.md R140-R144; 60_exceptions.md R208, R209) -/

/-- The registers in the order INT pushes them (R141). -/
abbrev pushOrder : List RegIdx := [0, 1, 2, 3, 4, 5, 6, 7]

/-- The registers in the order IRET pops them (R142). -/
abbrev popOrder : List RegIdx := [7, 6, 5, 4, 3, 2, 1, 0]

/-- Save the machine: push the return address, the FL byte, and R0 to R7 (R141, R144). -/
def State.pushFrame (s : State) (ret : Byte) : State :=
  pushOrder.foldl State.pushReg ((s.pushVal ret).pushVal s.fl.toByte)

/-- Interrupt entry: save the machine, then go to the handler whose address stands in the number's vector slot. The
number is read from its register after the pushes, and a number with no slot faults and commits nothing (R140, R141). -/
def enterInterrupt (i : Instr) (s : State) (r : RegIdx) : Result :=
  withReturnAddress i s fun ret =>
    let w := s.pushFrame ret
    let va := Config.vectorBase + (w.reg r).toNat
    if va < Config.memSize then .next (w.setPc (w.read (BitVec.ofNat 8 va)))
    else raise i s (.vector va)

/-- The end of an interrupt return: pop FL, of which bits 2-0 are kept, and then the pc (R142). -/
def State.popFlagsAndPc (s : State) : State :=
  let (t, w) := s.popVal
  let (target, w) := (w.setFlags (Flags.ofByte t)).popVal
  w.setPc target

/-- Interrupt return: pop R7 to R0, then FL, then the pc (R142). -/
def returnFromInterrupt (s : State) : Result :=
  .next (popOrder.foldl State.popReg s).popFlagsAndPc

end Sys2Proof.Machine
end

