-- ==== Sys2Proof/Machine/Operands.lean ====
section
/-! DEFINITION. The operand forms (30_encoding.md R65-R68). A `reg` operand byte is checked before the instruction executes,
a before b (R66, R80); an immediate is used as it is (R67) and needs no operation. -/

namespace Sys2Proof.Machine

/-- One register operand: go on with the register it names, or fault with the byte (R66). -/
def withReg (i : Instr) (s : State) (a : Byte) (k : RegIdx → Result) : Result :=
  if h : a.toNat < Config.nreg then k ⟨a.toNat, h⟩ else raise i s (.regIndex a)

/-- Two register operands, a checked before b (R66). -/
def withRegs (i : Instr) (s : State) (a b : Byte) (k : RegIdx → RegIdx → Result) : Result :=
  withReg i s a fun ra => withReg i s b fun rb => k ra rb

end Sys2Proof.Machine
end

