-- ==== Sys2Proof/Machine/Alu.lean ====
section
/-! DEFINITION. The twelve ALU operations (46_alu.md). The result goes to the first operand's register, except for CMP,
which writes only FL (R160). Values are unsigned and results are modulo 256 (R173). -/

namespace Sys2Proof.Machine

/-- A two-operand operation whose result always exists: x[a] takes `f x[a] x[b]` (R160). -/
def aluBinary (i : Instr) (f : Byte → Byte → Byte) (a b : Byte) (s : State) : Result :=
  withRegs i s a b fun ra rb => advance i s (s.setReg ra (f (s.reg ra) (s.reg rb)))

/-- A one-operand operation (R160). -/
def aluUnary (i : Instr) (f : Byte → Byte) (a : Byte) (s : State) : Result :=
  withReg i s a fun ra => advance i s (s.setReg ra (f (s.reg ra)))

/-- A division: a zero divisor raises NUMERIC, before the pc's advancement is looked at (R164, R165, R207). -/
def aluDivision (i : Instr) (f : Byte → Byte → Byte) (a b : Byte) (s : State) : Result :=
  withRegs i s a b fun ra rb =>
    if s.reg rb = 0#8 then raise i s .numeric
    else advance i s (s.setReg ra (f (s.reg ra) (s.reg rb)))

/-- ADD (R161). -/
def execAdd (a b : Byte) (s : State) : Result := aluBinary (.add a b) (fun x y => x + y) a b s

/-- SUB (R162). -/
def execSub (a b : Byte) (s : State) : Result := aluBinary (.sub a b) (fun x y => x - y) a b s

/-- MUL: the low byte of the product (R163). -/
def execMul (a b : Byte) (s : State) : Result := aluBinary (.mul a b) (fun x y => x * y) a b s

/-- DIV: the floor of the unsigned quotient (R164). -/
def execDiv (a b : Byte) (s : State) : Result :=
  aluDivision (.div a b) (fun x y => BitVec.ofNat 8 (x.toNat / y.toNat)) a b s

/-- MOD: the unsigned remainder (R165). -/
def execMod (a b : Byte) (s : State) : Result :=
  aluDivision (.mod a b) (fun x y => BitVec.ofNat 8 (x.toNat % y.toNat)) a b s

/-- INC (R166). -/
def execInc (a : Byte) (s : State) : Result := aluUnary (.inc a) (fun x => x + 1) a s

/-- DEC (R167). -/
def execDec (a : Byte) (s : State) : Result := aluUnary (.dec a) (fun x => x - 1) a s

/-- CMP: all three flags written, no register (R168). -/
def execCmp (a b : Byte) (s : State) : Result :=
  withRegs (.cmp a b) s a b fun ra rb =>
    advance (.cmp a b) s (s.setFlags (Flags.compare (s.reg ra) (s.reg rb)))

/-- AND (R169). -/
def execAnd (a b : Byte) (s : State) : Result := aluBinary (.and a b) (fun x y => x &&& y) a b s

/-- OR (R170). -/
def execOr (a b : Byte) (s : State) : Result := aluBinary (.or a b) (fun x y => x ||| y) a b s

/-- XOR (R171). -/
def execXor (a b : Byte) (s : State) : Result := aluBinary (.xor a b) (fun x y => x ^^^ y) a b s

/-- NOT: every bit inverted (R172). -/
def execNot (a : Byte) (s : State) : Result := aluUnary (.not a) (fun x => ~~~x) a s

end Sys2Proof.Machine
end

