-- ==== Sys2Proof/Machine/DataMovement.lean ====
section
/-! DEFINITION. LDI, LD and ST (40_data_movement.md). -/

namespace Sys2Proof.Machine

/-- LDI (R100). -/
def execLdi (a imm : Byte) (s : State) : Result :=
  withReg (.ldi a imm) s a fun ra => advance (.ldi a imm) s (s.setReg ra imm)

/-- LD: the second operand's register holds the address (R101; the spec's decision D3). -/
def execLd (a b : Byte) (s : State) : Result :=
  withRegs (.ld a b) s a b fun ra rb => advance (.ld a b) s (s.setReg ra (s.read (s.reg rb)))

/-- ST: the first operand's register holds the address (R102; the spec's decision D3). -/
def execSt (a b : Byte) (s : State) : Result :=
  withRegs (.st a b) s a b fun ra rb => advance (.st a b) s (s.write (s.reg ra) (s.reg rb))

end Sys2Proof.Machine
end

