-- ==== Sys2Proof/Machine/Halt.lean ====
section
/-! DEFINITION. HLT (47_halt.md). -/

namespace Sys2Proof.Machine

/-- HLT: the run ends normally and the pc stays at the HLT (R190; 90_conflicts.md C5). -/
def execHlt (s : State) : Result := .next s.halt

end Sys2Proof.Machine
end

