-- ==== Sys2Proof/Machine/Interrupt.lean ====
section
/-! DEFINITION. INT and IRET (44_interrupt.md). -/

namespace Sys2Proof.Machine

/-- INT (R141). -/
def execInt (a : Byte) (s : State) : Result :=
  withReg (.int a) s a fun ra => enterInterrupt (.int a) s ra

/-- IRET (R142). -/
def execIret (s : State) : Result := returnFromInterrupt s

end Sys2Proof.Machine
end

