-- ==== Sys2Proof/Machine/Jumps.lean ====
section
/-! DEFINITION. JMP, JEQ, JNE, JGT and JLT (45_control_transfer.md). -/

namespace Sys2Proof.Machine

/-- A jump that is taken assigns the pc; one that is not advances by the generic rule (R82; 90_conflicts.md C8). -/
def jumpWhen (i : Instr) (taken : Bool) (a : Byte) (s : State) : Result :=
  withReg i s a fun ra => if taken then .next (s.setPc (s.reg ra)) else advance i s s

/-- JMP (R150). -/
def execJmp (a : Byte) (s : State) : Result := jumpWhen (.jmp a) true a s

/-- JEQ (R151). -/
def execJeq (a : Byte) (s : State) : Result := jumpWhen (.jeq a) s.fl.e a s

/-- JNE (R152): only E is consulted. -/
def execJne (a : Byte) (s : State) : Result := jumpWhen (.jne a) (!s.fl.e) a s

/-- JGT (R153). -/
def execJgt (a : Byte) (s : State) : Result := jumpWhen (.jgt a) s.fl.g a s

/-- JLT (R154). -/
def execJlt (a : Byte) (s : State) : Result := jumpWhen (.jlt a) s.fl.l a s

end Sys2Proof.Machine
end

