-- ==== Sys2Proof/Machine/Output.lean ====
section
/-! DEFINITION. PRN and PRA, up to the output port (41_output.md). -/

namespace Sys2Proof.Machine

/-- PRN (R111): the event is sent only when the instruction commits (R110). -/
def execPrn (a : Byte) (s : State) : Result :=
  withReg (.prn a) s a fun ra => advance (.prn a) s (s.emit (.prn (s.reg ra)))

/-- PRA (R112). -/
def execPra (a : Byte) (s : State) : Result :=
  withReg (.pra a) s a fun ra => advance (.pra a) s (s.emit (.pra (s.reg ra)))

end Sys2Proof.Machine
end

