-- ==== Sys2Proof/Machine/Stack.lean ====
section
/-! DEFINITION. PUSH and POP (42_stack.md). -/

namespace Sys2Proof.Machine

/-- PUSH (R122). PUSH R7 stores the decremented SP, because the register is read after the decrement (D8). -/
def execPush (a : Byte) (s : State) : Result :=
  withReg (.push a) s a fun ra => advance (.push a) s (s.pushReg ra)

/-- POP (R123). POP R7 leaves the popped byte plus 1 (D8). -/
def execPop (a : Byte) (s : State) : Result :=
  withReg (.pop a) s a fun ra => advance (.pop a) s (s.popReg ra)

end Sys2Proof.Machine
end

