-- ==== Sys2Proof/Machine/Subroutine.lean ====
section
/-! DEFINITION. CALL and RET (43_subroutine.md). -/

namespace Sys2Proof.Machine

/-- CALL (R130): the target register is read after the push, so CALL R7 goes to the new SP (D8). -/
def execCall (a : Byte) (s : State) : Result :=
  withReg (.call a) s a fun ra =>
    withReturnAddress (.call a) s fun ret =>
      let w := s.pushVal ret
      .next (w.setPc (w.reg ra))

/-- RET (R131). -/
def execRet (s : State) : Result :=
  let (target, w) := s.popVal
  .next (w.setPc target)

end Sys2Proof.Machine
end

