-- ==== Sys2Proof/Machine/Dispatch.lean ====
section
/-! DEFINITION. Which meaning each instruction has (30_encoding.md R70, R80). -/

namespace Sys2Proof.Machine

def exec (i : Instr) (s : State) : Host.Outcome State Fault Refusal :=
  match i with
  | .ldi a imm => Sys2Proof.Machine.execLdi a imm s
  | .ld a b => Sys2Proof.Machine.execLd a b s
  | .st a b => Sys2Proof.Machine.execSt a b s
  | .prn a => Sys2Proof.Machine.execPrn a s
  | .pra a => Sys2Proof.Machine.execPra a s
  | .push a => Sys2Proof.Machine.execPush a s
  | .pop a => Sys2Proof.Machine.execPop a s
  | .call a => Sys2Proof.Machine.execCall a s
  | .ret => Sys2Proof.Machine.execRet s
  | .int a => Sys2Proof.Machine.execInt a s
  | .iret => Sys2Proof.Machine.execIret s
  | .jmp a => Sys2Proof.Machine.execJmp a s
  | .jeq a => Sys2Proof.Machine.execJeq a s
  | .jne a => Sys2Proof.Machine.execJne a s
  | .jgt a => Sys2Proof.Machine.execJgt a s
  | .jlt a => Sys2Proof.Machine.execJlt a s
  | .add a b => Sys2Proof.Machine.execAdd a b s
  | .sub a b => Sys2Proof.Machine.execSub a b s
  | .mul a b => Sys2Proof.Machine.execMul a b s
  | .div a b => Sys2Proof.Machine.execDiv a b s
  | .mod a b => Sys2Proof.Machine.execMod a b s
  | .inc a => Sys2Proof.Machine.execInc a s
  | .dec a => Sys2Proof.Machine.execDec a s
  | .cmp a b => Sys2Proof.Machine.execCmp a b s
  | .and a b => Sys2Proof.Machine.execAnd a b s
  | .or a b => Sys2Proof.Machine.execOr a b s
  | .xor a b => Sys2Proof.Machine.execXor a b s
  | .not a => Sys2Proof.Machine.execNot a s
  | .hlt => Sys2Proof.Machine.execHlt s

end Sys2Proof.Machine
end

