-- ==== Sys2Proof/Machine/Fetch.lean ====
section
/-! DEFINITION. Fetching an instruction and its operand bytes (30_encoding.md R80, R81, R84). -/

namespace Sys2Proof.Machine

/-- `MAX_OPERANDS` (R6). -/
abbrev maxOperands : Nat := 2

/-- The bytes after the opcode that an instruction at the pc could have as operands: those that lie inside memory (R81). -/
def State.operandWindow (s : State) : List Byte :=
  ((List.range' (s.pc.toNat + 1) maxOperands).filter (· < Config.memSize)).map s.mem.read

/-- The fault record of bytes that do not decode. An illegal opcode is a decode fault with no operand bytes (R84, R201). An
operand byte past 0xFF is a FETCH fault at the first address that does not exist, with the bytes before it (R81, R202).
The opcode byte itself is always there, so `noBytes` does not arise; it reads as an illegal byte would. -/
def fetchFault (s : State) : DecodeError → FaultRecord
  | .noBytes => Raise.decode.record s.pc (s.read s.pc) []
  | .noInstruction op => Raise.decode.record s.pc op []
  | .missingOperand op got => (Raise.fetch (s.pc.toNat + got.length + 1)).record s.pc op got

/-- Fetch and decode the instruction at the pc (R80), or the record of the fault. -/
def fetch (s : State) : Except FaultRecord Instr :=
  match decodeFrom (s.read s.pc) s.operandWindow with
  | .ok (i, _) => .ok i
  | .error e => .error (fetchFault s e)

/-- Write bytes from an address up; those past 0xFF have nowhere to go. -/
def Memory.writeBytes (m : Memory) (n : Nat) : List Byte → Memory
  | [] => m
  | v :: vs => Memory.writeBytes (if n < Config.memSize then m.write n v else m) (n + 1) vs

end Sys2Proof.Machine
end

