-- ==== Sys2Proof/Machine/Step.lean ====
section
/-! DEFINITION. One step of the machine (30_encoding.md R80, R85). -/

namespace Sys2Proof.Machine

/-- One step: fetch, decode and execute the instruction at the pc (R80). A fault while fetching is taken as any fault
is (R13). When the machine is HALTED or FAULTED nothing changes (R85). -/
def step (s : State) : Host.Outcome State Fault Refusal :=
  match s.status with
  | .running =>
    match fetch s with
    | .ok i => exec i s
    | .error f => .next (s.takeFault f)
  | .halted => .next s
  | .faulted => .next s

/-- The state with a table word's bytes loaded at the pc and the machine RUNNING with no fault record, so that the very
next step fetches them. Bytes that would lie past 0xFF are not stored (log entry 8). -/
def State.withFetchWord (s : State) (nbits w : Nat) : State :=
  { s with mem := s.mem.writeBytes s.pc.toNat (tableBytes nbits w), status := .running, fault := none }

end Sys2Proof.Machine
end

