-- ==== Sys2Proof/Machine/HostOps.lean ====
section
/-! DEFINITION. What the host can do to a machine (70_reset_and_hazards.md R234, R240-R244) and what the output device
shows (41_output.md R110). -/

namespace Sys2Proof.Machine

/-! ### Codes (R26, R27, R200, R202; the spec's decision D25) -/

def Status.code : Status → Nat
  | .running => 0
  | .halted => 1
  | .faulted => 2

def FaultKind.code : FaultKind → Nat
  | .decode => 1
  | .addressing => 2
  | .numeric => 3

def FaultCause.code : FaultCause → Nat
  | .noCause => 0
  | .fetch => 1
  | .regIndex => 2
  | .pcAdvance => 3
  | .returnAddress => 4
  | .vector => 5

/-- The fault record as numbers, with every field 0 when there is no fault (R27, R30). -/
structure FaultFields where
  kind : Nat
  cause : Nat
  addr : Byte
  opcode : Byte
  operands : List Byte
  detail : Nat
  deriving DecidableEq, Repr

def faultFields : Option FaultRecord → FaultFields
  | none => ⟨0, 0, 0#8, 0#8, [], 0⟩
  | some f => ⟨f.kind.code, f.cause.code, f.addr, f.opcode, f.operands, f.detail⟩

/-! ### load, step, run, inspect -/

/-- `load(image)`: byte i of the image at address i; an image longer than memory is refused (R234). -/
def State.load (s : State) (image : List Byte) : Option State :=
  if image.length ≤ Config.memSize then some { s with mem := s.mem.writeBytes 0 image } else none

/-- The state after a step. The step always answers a next state, so the other two cases do not arise. -/
def stepState (s : State) : State :=
  match step s with
  | .next t => t
  | .fault _ => s
  | .refused _ => s

/-- What `run` returns: the final status, or that the fuel ran out with the machine still RUNNING (R243). -/
inductive RunResult where
  | ended (status : Status)
  | outOfFuel
  deriving DecidableEq, Repr

/-- `run(fuel)`: repeat `step` while RUNNING, at most `fuel` times (R86, R243). -/
def run : Nat → State → State × RunResult
  | 0, s => (s, if s.status = .running then .outOfFuel else .ended s.status)
  | fuel + 1, s => if s.status = .running then run fuel (stepState s) else (s, .ended s.status)

/-- What `inspect()` returns: the whole state (R244), with the codes of R26 and R27 and FL as its byte (R24). The output
trace is not in R244's list; the device has it. -/
structure Inspection where
  regs : Vector Byte 8
  pc : Byte
  fl : Byte
  mem : List Byte
  status : Nat
  fault : FaultFields
  deriving DecidableEq, Repr

/-- `inspect()` (R244). Inspecting changes nothing. -/
def State.inspect (s : State) : Inspection :=
  { regs := s.regs, pc := s.pc, fl := s.fl.toByte, mem := (List.range Config.memSize).map s.mem.read,
    status := s.status.code, fault := faultFields s.fault }

/-! ### A session: which operations are legal when (R240, R241) -/

/-- The host's operations (R240-R244). -/
inductive HostCommand where
  | reset
  | load (image : List Byte)
  | step
  | run (fuel : Nat)
  | inspect
  deriving DecidableEq, Repr

/-- What an operation returns to the host. -/
inductive HostReply where
  | done
  | status (st : Status)
  | ran (r : RunResult)
  | inspected (view : Inspection)
  deriving DecidableEq, Repr

/-- A machine and whether a step has been taken since its reset, which is what decides if `load` is legal (R241). -/
structure Session where
  machine : State
  stepped : Bool
  deriving DecidableEq, Repr

/-- A fresh machine (R230), for any `GPR_RESET`. -/
def Session.fresh (gpr : Vector Byte 7) : Session := ⟨State.resetWith gpr Flags.clear, false⟩

/-- One host operation; none when it is not legal then (R241) or the image is too long (R234). Reset is legal at any
time and preserves nothing (R240); `gpr` is what the registers R0 to R6 come up with if this operation is a reset.
A `run` that takes no step leaves `load` legal (DESIGN CHOICE, log entry 9). -/
def Session.perform (gpr : Vector Byte 7) (h : Session) : HostCommand → Option (Session × HostReply)
  | .reset => some (Session.fresh gpr, .done)
  | .load image =>
    if h.stepped then none else (h.machine.load image).map fun s => (⟨s, false⟩, .done)
  | .step => some (⟨stepState h.machine, true⟩, .status (stepState h.machine).status)
  | .run fuel => some (⟨(run fuel h.machine).1, h.stepped || fuel != 0⟩, .ran (run fuel h.machine).2)
  | .inspect => some (h, .inspected h.machine.inspect)

/-! ### The output device's rendering (R110) -/

/-- The unsigned decimal digits of a byte, with no sign and no leading zeros (R110, R111). -/
def decimalDigits (v : Byte) : List Char :=
  let digit : Nat → Char := fun d => Char.ofNat (48 + d)
  let n := v.toNat
  if n < 10 then [digit n]
  else if n < 100 then [digit (n / 10), digit (n % 10)]
  else [digit (n / 100), digit (n / 10 % 10), digit (n % 10)]

/-- What the device shows for an event: PRN's digits, or PRA's one character, which `CHARSET` chooses (R110). -/
def OutEvent.render : OutEvent → List Char
  | .prn v => decimalDigits v
  | .pra v => [Config.charset v]

/-- What the device shows for a trace: the events in order, with nothing added between them (R110, R245). -/
def renderTrace (out : List OutEvent) : List Char := out.flatMap OutEvent.render

end Sys2Proof.Machine
end

