-- ==== Sys2Proof/Machine/Assembly.lean ====
section
/-! DEFINITION. Assembly text of one instruction (30_encoding.md R74): `MNEMONIC [op1[, op2]]`, to bytes and back.
Where R74 leaves the text open (letter case, spaces, repeated commas), log entry 10 says what is accepted. -/

namespace Sys2Proof.Machine

/-- A mnemonic's letters. -/
def Mnemonic.letters : Mnemonic → List Char
  | .LDI => ['L', 'D', 'I']
  | .LD => ['L', 'D']
  | .ST => ['S', 'T']
  | .PRN => ['P', 'R', 'N']
  | .PRA => ['P', 'R', 'A']
  | .PUSH => ['P', 'U', 'S', 'H']
  | .POP => ['P', 'O', 'P']
  | .CALL => ['C', 'A', 'L', 'L']
  | .RET => ['R', 'E', 'T']
  | .INT => ['I', 'N', 'T']
  | .IRET => ['I', 'R', 'E', 'T']
  | .JMP => ['J', 'M', 'P']
  | .JEQ => ['J', 'E', 'Q']
  | .JNE => ['J', 'N', 'E']
  | .JGT => ['J', 'G', 'T']
  | .JLT => ['J', 'L', 'T']
  | .ADD => ['A', 'D', 'D']
  | .SUB => ['S', 'U', 'B']
  | .MUL => ['M', 'U', 'L']
  | .DIV => ['D', 'I', 'V']
  | .MOD => ['M', 'O', 'D']
  | .INC => ['I', 'N', 'C']
  | .DEC => ['D', 'E', 'C']
  | .CMP => ['C', 'M', 'P']
  | .AND => ['A', 'N', 'D']
  | .OR => ['O', 'R']
  | .XOR => ['X', 'O', 'R']
  | .NOT => ['N', 'O', 'T']
  | .HLT => ['H', 'L', 'T']

/-- Split text into words at spaces and commas; the first argument is the word being read. -/
def splitWords : List Char → List Char → List (List Char)
  | [], [] => []
  | word, [] => [word]
  | word, c :: cs =>
    if c = ' ' || c = ',' then
      if word = [] then splitWords [] cs else word :: splitWords [] cs
    else splitWords (word ++ [c]) cs

/-- The value of a digit character in a base up to 16. -/
def digitValue (base : Nat) (c : Char) : Option Nat :=
  let n := c.toNat
  let v := if 48 ≤ n ∧ n ≤ 57 then n - 48
    else if 97 ≤ n ∧ n ≤ 102 then n - 87
    else if 65 ≤ n ∧ n ≤ 70 then n - 55
    else 16
  if v < base then some v else none

/-- The value of a nonempty run of digits. -/
def digitsValue (base : Nat) : List Char → Option Nat
  | [] => none
  | cs => cs.foldl (fun acc c => do return (← acc) * base + (← digitValue base c)) (some 0)

/-- A register word: `R0` to `R7`, or `SP` for R7 (R74). -/
def parseRegister : List Char → Option Byte
  | ['S', 'P'] => some 7#8
  | ['R', c] => (digitValue 8 c).map (BitVec.ofNat 8)
  | _ => none

/-- An immediate word: decimal, or with a `0x` or `0b` prefix, and at most 255 (R74). -/
def parseImmediate (word : List Char) : Option Byte :=
  let value := match word with
    | '0' :: 'x' :: cs => digitsValue 16 cs
    | '0' :: 'b' :: cs => digitsValue 2 cs
    | cs => digitsValue 10 cs
  match value with
  | some n => if n ≤ 255 then some (BitVec.ofNat 8 n) else none
  | none => none

/-- An operand word of a given kind. -/
def parseOperand : OperandKind → List Char → Option Byte
  | .reg, word => parseRegister word
  | .imm8, word => parseImmediate word

/-- Operand words in the encoding order of R68, exactly as many as there are kinds. -/
def parseOperands : List OperandKind → List (List Char) → Option (List Byte)
  | [], [] => some []
  | k :: ks, w :: ws => do return (← parseOperand k w) :: (← parseOperands ks ws)
  | _, _ => none

/-- The bytes of one line of assembly: the opcode, then a, then b (R74). -/
def assemble (line : List Char) : Option (List Byte) :=
  match splitWords [] line with
  | [] => none
  | name :: operands =>
    match opcodeMap.find? fun r => Mnemonic.letters r.mnemonic == name with
    | none => none
    | some row => (parseOperands row.kinds operands).map (row.opcode :: ·)

/-- An operand byte written in assembly: `R<n>`, or a decimal immediate (R74). -/
def operandText : OperandKind → Byte → List Char
  | .reg, b => 'R' :: decimalDigits b
  | .imm8, b => decimalDigits b

/-- Operands written in the encoding order, with a comma and a space between them (R74). -/
def operandsText : List OperandKind → List Byte → List Char
  | [k], [b] => ' ' :: operandText k b
  | [k, k'], [b, b'] => ' ' :: operandText k b ++ [',', ' '] ++ operandText k' b'
  | _, _ => []

/-- The assembly text of an instruction (R74). -/
def assemblyText (i : Instr) : List Char :=
  match findRow (opcodeByte i) with
  | none => []
  | some row => Mnemonic.letters row.mnemonic ++ operandsText row.kinds (operandBytes i)

end Sys2Proof.Machine
end

