-- ==== Sys2Proof/Safety.lean ====
section
/-! DEFINITION. What counts as a safe run, and the invariant every step keeps. -/

namespace Sys2Proof.Machine

/-- The states a machine passes through from a given one. -/
inductive Reaches : State → State → Prop where
  | refl (s : State) : Reaches s s
  | step {s t u : State} : Reaches s t → step t = .next u → Reaches s u

/-- A machine runs safely when it never becomes FAULTED (R26, R204). -/
def RunsSafely (s : State) : Prop := ∀ t, Reaches s t → t.status ≠ .faulted

/-- What a fault record says about the machine that holds it: it is at the faulting instruction's opcode, whose bytes
are still in memory, and its kind, cause and detail belong together (R13, R27, R200-R203). -/
def RecordAgrees (s : State) (f : FaultRecord) : Prop :=
  f.addr = s.pc ∧ f.opcode = s.read s.pc ∧
  f.operands = ((List.range' (s.pc.toNat + 1) f.operands.length).map s.mem.read) ∧
  s.pc.toNat + f.operands.length < Config.memSize ∧
  match f.kind, f.cause with
  | .decode, .noCause => classify f.opcode = none ∧ f.operands = [] ∧ f.detail = 0
  | .addressing, .fetch => f.detail = Config.memSize
  | .addressing, .regIndex => Config.nreg ≤ f.detail ∧ ∃ b ∈ f.operands, b.toNat = f.detail
  | .addressing, .pcAdvance => f.detail = Config.memSize
  | .addressing, .returnAddress => f.detail = Config.memSize ∧ (f.opcode = 0x40#8 ∨ f.opcode = 0x42#8)
  | .addressing, .vector =>
    Config.vectorBase + Config.numInt ≤ f.detail ∧ f.detail ≤ Config.vectorBase + 255 ∧ f.opcode = 0x42#8
  | .numeric, .noCause => f.detail = 0 ∧ (f.opcode = 0xA3#8 ∨ f.opcode = 0xA4#8)
  | _, _ => False

/-- The invariant: memory keeps its canonical form; a fault record is held exactly when FAULTED, and agrees with the
machine; a HALTED machine stands at a HLT (R190). -/
structure Inv (s : State) : Prop where
  memory : Memory.wf s.mem
  faulted_iff : s.status = .faulted ↔ s.fault.isSome
  record : ∀ f, s.fault = some f → RecordAgrees s f
  halted : s.status = .halted → s.read s.pc = 0x01#8

end Sys2Proof.Machine
end

