-- ==== Sys2Proof/Certificates/Slice0/Obligations.lean ====
section
/-! DEFINITION. The statements for the provers, and the words they are written in.
A state after an instruction is written as the state before it with the fields that change, so what is not named is unchanged. -/

namespace Sys2Proof.Claims

open Sys2Proof Sys2Proof.Machine

/-- The operand byte `a` names the register `r` (R66). -/
abbrev Names (a : Byte) (r : RegIdx) : Prop := a.toNat = r.val

/-- The address `n` bytes after the pc exists, so an instruction of that length has its bytes and its successor inside memory. -/
abbrev Fits (n : Nat) (s : State) : Prop := s.pc.toNat + n ≤ 255

/-- The state that is `s` FAULTED by the instruction `i`, and otherwise `s` (R13, R27). -/
def faultBy (i : Instr) (s : State) (kind : FaultKind) (cause : FaultCause) (detail : Nat) : State :=
  { s with status := .faulted, fault := some ⟨kind, cause, s.pc, opcodeByte i, operandBytes i, detail⟩ }

/-- The registers an operand byte names: one, or none when the byte is above 7. -/
def namedRegs (a : Byte) : List RegIdx := (List.finRange 8).filter fun r => a.toNat = r.val

/-- The registers each instruction may write: its destination, and SP where it moves the stack (R68, R120, R121, R160). -/
def writtenRegs : Instr → List RegIdx
  | .ldi a _ | .ld a _ => namedRegs a
  | .st _ _ | .prn _ | .pra _ => []
  | .push _ | .call _ | .ret | .int _ => [7]
  | .pop a => 7 :: namedRegs a
  | .iret => [0, 1, 2, 3, 4, 5, 6, 7]
  | .jmp _ | .jeq _ | .jne _ | .jgt _ | .jlt _ => []
  | .add a _ | .sub a _ | .mul a _ | .div a _ | .mod a _ | .and a _ | .or a _ | .xor a _ => namedRegs a
  | .inc a | .dec a | .not a => namedRegs a
  | .cmp _ _ | .hlt => []

/-- The addresses of the ten bytes of an interrupt frame pushed from SP = sp, the first pushed first (R144). -/
def frameAddresses (sp : Byte) : List Byte :=
  [sp - 1, sp - 2, sp - 3, sp - 4, sp - 5, sp - 6, sp - 7, sp - 8, sp - 9, sp - 10]

/-- The addresses each instruction stores to, one byte each, computed from the state before it: ST's address register,
the slot below SP for PUSH and CALL, the ten slots below SP for INT; every other instruction stores nothing (R42). -/
def storedAddresses (i : Instr) (s : State) : List Byte :=
  match i with
  | .st a _ => (namedRegs a).map s.reg
  | .push _ | .call _ => [s.reg 7 - 1]
  | .int _ => frameAddresses (s.reg 7)
  | .ldi _ _ | .ld _ _ | .prn _ | .pra _ | .pop _ | .ret | .iret => []
  | .jmp _ | .jeq _ | .jne _ | .jgt _ | .jlt _ => []
  | .add _ _ | .sub _ _ | .mul _ _ | .div _ _ | .mod _ _ | .cmp _ _ | .and _ _ | .or _ _ | .xor _ _ => []
  | .inc _ | .dec _ | .not _ | .hlt => []

/-- The byte of FL in a frame: `{00000, L, G, E}` as a number (R24). -/
def flagsNumber (f : Flags) : Nat := 4 * f.l.toNat + 2 * f.g.toNat + f.e.toNat

/-- The ten bytes of the frame INT writes, the first pushed first (R144). -/
def frameBytes (s : State) : List Byte :=
  [s.pc + 2, BitVec.ofNat 8 (flagsNumber s.fl), s.reg 0, s.reg 1, s.reg 2, s.reg 3, s.reg 4, s.reg 5, s.reg 6, s.reg 7 - 10]

/-- What an address holds after INT has pushed its frame over the memory of `s`: frame byte k is at SP - 1 - k, modulo 256. -/
def afterFrame (s : State) (addr : Byte) : Byte :=
  let k := (s.reg 7 - 1 - addr).toNat
  if k < 10 then (frameBytes s).getD k 0 else s.read addr

/-- The interrupt number INT reads from register `r`: after the pushes, so R7 reads as SP - 10 (R141). -/
def interruptNumber (s : State) (r : RegIdx) : Byte := if r = 7 then s.reg 7 - 10 else s.reg r

/-- The execution of `i` in `s` passes every check but the last and assigns no pc, so the generic advancement ends it (R82, R83). -/
def GenericallyAdvances (i : Instr) (s : State) : Prop :=
  i.wf = true ∧
  match i with
  | .call _ | .ret | .int _ | .iret | .jmp _ | .hlt => False
  | .jeq _ => s.fl.e = false
  | .jne _ => s.fl.e = true
  | .jgt _ => s.fl.g = false
  | .jlt _ => s.fl.l = false
  | .div _ b | .mod _ b => ∀ r, Names b r → s.reg r ≠ 0#8
  | .ldi _ _ | .ld _ _ | .st _ _ | .prn _ | .pra _ | .push _ | .pop _ => True
  | .add _ _ | .sub _ _ | .mul _ _ | .cmp _ _ | .and _ _ | .or _ _ | .xor _ _ | .inc _ | .dec _ | .not _ => True

/-- The twelve ALU operations (R160). -/
def isAluOperation : Instr → Bool
  | .add _ _ | .sub _ _ | .mul _ _ | .div _ _ | .mod _ _ | .inc _ | .dec _ | .cmp _ _ => true
  | .and _ _ | .or _ _ | .xor _ _ | .not _ => true
  | .ldi _ _ | .ld _ _ | .st _ _ | .prn _ | .pra _ | .push _ | .pop _ | .call _ | .ret | .int _ | .iret => false
  | .jmp _ | .jeq _ | .jne _ | .jgt _ | .jlt _ | .hlt => false

/-- The instructions that write FL (R24, R63). -/
def writesFlags : Instr → Bool
  | .cmp _ _ | .iret => true
  | .ldi _ _ | .ld _ _ | .st _ _ | .prn _ | .pra _ | .push _ | .pop _ | .call _ | .ret | .int _ => false
  | .jmp _ | .jeq _ | .jne _ | .jgt _ | .jlt _ | .hlt => false
  | .add _ _ | .sub _ _ | .mul _ _ | .div _ _ | .mod _ _ | .inc _ | .dec _ => false
  | .and _ _ | .or _ _ | .xor _ _ | .not _ => false

/-- The events an execution of `i` that commits sends to the output port (R111, R112). -/
def sentEvents (i : Instr) (s : State) : List OutEvent :=
  match i with
  | .prn a => (namedRegs a).map fun r => .prn (s.reg r)
  | .pra a => (namedRegs a).map fun r => .pra (s.reg r)
  | _ => []

end Sys2Proof.Claims

open Sys2Proof Sys2Proof.Machine Sys2Proof.Claims

/-! ### Reset -/

/-- R30, R230: what reset leaves, for every value of the open parameter `GPR_RESET`. -/
def Obligations.ResetLeavesSpecifiedState : Prop :=
  ∀ gpr : Vector Byte 7,
    let s := State.resetWith gpr Flags.clear
    (∀ addr : Byte, s.read addr = 0) ∧
    (∀ (k : Nat) (h : k < 7), s.reg ⟨k, by omega⟩ = gpr[k]) ∧
    s.reg 7 = 0xF4#8 ∧ s.pc = 0 ∧ s.fl = ⟨false, false, false⟩ ∧
    s.status = .running ∧ s.fault = none ∧ s.out = []

/-- The fixed reset state is the reset of R30 with `GPR_RESET` all zero. The zeros are the model's choice (log entry 1):
the spec leaves the parameter open and names zero as its reference value (R7, R30). -/
def Obligations.FixedResetUsesReferenceRegisters : Prop :=
  State.reset = State.resetWith (Vector.replicate 7 0) Flags.clear ∧ ∀ r : RegIdx, r ≠ 7 → State.reset.reg r = 0

/-- Every reset state meets the invariant that `StepKeepsInvariant` says each step keeps. -/
def Obligations.ResetMeetsInvariant : Prop :=
  ∀ (gpr : Vector Byte 7) (fl : Flags), Inv (State.resetWith gpr fl)

/-! ### The step -/

/-- From every state, reached by a run or not, a step keeps the canonical form of memory, the agreement of status, fault
record and memory (R13, R27, R200-R204), and HALTED standing at a HLT (R190). That the detail of a FETCH record is 256,
where R81 writes "256 or 257", is the model's inference (DEDUCED, log entry 7). -/
def Obligations.StepKeepsInvariant : Prop :=
  ∀ s t : State, Inv s → step s = .next t → Inv t

/-- The step never ends outside the state: faults are states (R13, R204; log entry 3). -/
def Obligations.StepAlwaysAnswersNext : Prop := ∀ s : State, ∃ t, step s = .next t

/-- R80: when the bytes at the pc are those of an instruction, well formed or not, a RUNNING machine's step is its execution. -/
def Obligations.StepRunsTheDecodedInstruction : Prop :=
  ∀ (s : State) (i : Instr), s.status = .running →
    (∀ k (h : k < (encode i).length), s.pc.toNat + k ≤ 255 ∧ s.mem.read (s.pc.toNat + k) = (encode i)[k]) →
    step s = exec i s

/-- R85. -/
def Obligations.TerminalStatesDoNotStep : Prop :=
  ∀ s : State, s.status = .halted ∨ s.status = .faulted → step s = .next s

/-- R84, R201: an opcode byte that is no row of the map, whatever follows it. -/
def Obligations.IllegalOpcodeTakesDecodeFault : Prop :=
  ∀ s : State, s.status = .running → classify (s.read s.pc) = none →
    step s = .next { s with status := .faulted, fault := some ⟨.decode, .noCause, s.pc, s.read s.pc, [], 0⟩ }

/-- R81: an operand byte past the end of memory. The first address that does not exist is 256, so that is the detail
(DEDUCED, log entry 7), and the operand bytes that do exist are in the record. -/
def Obligations.OperandPastMemoryTakesFetchFault : Prop :=
  ∀ (s : State) (d : Descriptor), s.status = .running → classify (s.read s.pc) = some d →
    255 < s.pc.toNat + d.operandCount →
    step s = .next { s with
      status := .faulted
      fault := some ⟨.addressing, .fetch, s.pc, s.read s.pc,
        (List.range' (s.pc.toNat + 1) (255 - s.pc.toNat)).map s.mem.read, 256⟩ }

/-- R66: the first register operand above 7, a before b, is reported, whatever else would fail later. -/
def Obligations.BadRegisterOperandFaults : Prop :=
  ∀ (i : Instr) (s : State) (b : Byte), i.regOperands.find? (fun x => 8 ≤ x.toNat) = some b →
    exec i s = .next (faultBy i s .addressing .regIndex b.toNat)

/-- R83, R82: an execution that ends by advancing goes to pc + count + 1 when that address exists; when it does not, it
commits nothing, not its register, memory or output effects either, and faults. -/
def Obligations.GenericAdvanceMovesOnOrFaults : Prop :=
  ∀ (i : Instr) (s : State), GenericallyAdvances i s →
    let target := s.pc.toNat + countField (opcodeByte i) + 1
    (target ≤ 255 → ∃ t, exec i s = .next t ∧ t.pc.toNat = target ∧ t.status = s.status ∧ t.fault = s.fault) ∧
    (255 < target → exec i s = .next (faultBy i s .addressing .pcAdvance target))

/-- R207: what an execution reports is the first check that fails: that check does fail, and every check before it in the
order of R207 passes. Of two bad register operands a is reported. The DECODE and FETCH checks come before an execution. -/
def Obligations.ReportedFaultIsFirstFailedCheck : Prop :=
  ∀ (i : Instr) (s t : State) (f : FaultRecord), s.fault = none → exec i s = .next t → t.fault = some f →
    f.kind ≠ .decode ∧ f.cause ≠ .fetch ∧ (f.kind = .numeric ↔ f.cause = .noCause) ∧
    (f.cause = .regIndex → ∃ b, i.regOperands.find? (fun x => 8 ≤ x.toNat) = some b ∧ f.detail = b.toNat) ∧
    (f.cause ≠ .regIndex → i.wf = true) ∧
    (f.cause = .returnAddress → (∃ a, i = .call a ∨ i = .int a) ∧ 255 < s.pc.toNat + 2) ∧
    (f.cause = .vector → ∃ a r, i = .int a ∧ Names a r ∧ s.pc.toNat + 2 ≤ 255 ∧ 8 ≤ (interruptNumber s r).toNat) ∧
    (f.cause = .noCause → ∃ a b r, (i = .div a b ∨ i = .mod a b) ∧ Names b r ∧ s.reg r = 0#8) ∧
    (f.cause = .pcAdvance → GenericallyAdvances i s ∧ 255 < s.pc.toNat + countField (opcodeByte i) + 1)

/-! ### What executions leave unchanged -/

/-- R13, R204: an execution, and a step, that faults changes the status and the record and nothing else, and the record
names the instruction at the pc. -/
def Obligations.FaultingCommitsNothing : Prop :=
  (∀ (i : Instr) (s t : State), exec i s = .next t → s.status ≠ .faulted → t.status = .faulted →
    ∃ f : FaultRecord, f.addr = s.pc ∧ f.opcode = opcodeByte i ∧ f.operands = operandBytes i ∧
      t = { s with status := .faulted, fault := some f }) ∧
  ∀ s t : State, step s = .next t → s.status ≠ .faulted → t.status = .faulted →
    ∃ f : FaultRecord, f.addr = s.pc ∧ f.opcode = s.read s.pc ∧ t = { s with status := .faulted, fault := some f }

/-- R26: only HLT, from RUNNING, leaves a machine HALTED, and only a fault leaves it FAULTED; otherwise the status and the record stay. -/
def Obligations.StatusChangesOnlyByHltOrFault : Prop :=
  ∀ (i : Instr) (s t : State), exec i s = .next t →
    (i = .hlt ∧ t.status = .halted ∧ t.fault = s.fault) ∨
    (i ≠ .hlt ∧ t.status = s.status ∧ t.fault = s.fault) ∨
    (i ≠ .hlt ∧ t.status = .faulted ∧ t.fault.isSome)

/-- The register frame of every instruction: only its destination, and SP where it moves the stack. -/
def Obligations.RegistersOutsideDestinationsAreKept : Prop :=
  ∀ (i : Instr) (s t : State) (q : RegIdx), exec i s = .next t → q ∉ writtenRegs i → t.reg q = s.reg q

/-- R24: only CMP and IRET write FL. -/
def Obligations.OnlyCmpAndIretWriteFlags : Prop :=
  ∀ (i : Instr) (s t : State), exec i s = .next t → writesFlags i = false → t.fl = s.fl

/-- The memory frame of every instruction: every byte outside the ones it stores reads as before, all of memory for a
form that stores nothing. -/
def Obligations.MemoryOutsideStoredBytesIsKept : Prop :=
  ∀ (i : Instr) (s t : State) (addr : Byte), exec i s = .next t → addr ∉ storedAddresses i s → t.read addr = s.read addr

/-- R28, R110: an execution sends nothing if it faults, and otherwise PRN and PRA send their one event and no other
instruction sends any; the trace only grows. -/
def Obligations.OutputTraceOnlyGrows : Prop :=
  ∀ (i : Instr) (s t : State), exec i s = .next t → s.status = .running →
    t.out = s.out ++ (if t.status = .faulted then [] else sentEvents i s)

/-- R28, "the core has no knowledge of the sink": what was sent before never changes what a step does. -/
def Obligations.EarlierOutputIsNeverObserved : Prop :=
  ∀ (s t : State) (earlier : List OutEvent), step s = .next t →
    step { s with out := earlier ++ s.out } = .next { t with out := earlier ++ t.out }

/-! ### Encoding -/

/-- Decoding reads an instruction from bytes exactly when the bytes begin with its encoding: every operand byte of every
instruction survives, and no other bytes decode to it. -/
def Obligations.DecodeExactlyInvertsEncode : Prop :=
  ∀ (bytes rest : List Byte) (i : Instr), decode bytes = .ok (i, rest) ↔ bytes = encode i ++ rest

/-- R63: count, alu and sf of each instruction's opcode, and ids that differ within a class. -/
def Obligations.OpcodeFieldsFollowTheLayout : Prop :=
  (∀ i : Instr, countField (opcodeByte i) = (operandBytes i).length ∧
    aluField (opcodeByte i) = isAluOperation i ∧
    setsFlagsField (opcodeByte i) = writesFlags i) ∧
  ∀ r ∈ opcodeMap, ∀ q ∈ opcodeMap, r.mnemonic ≠ q.mnemonic →
    r.opcode.extractLsb' 4 4 = q.opcode.extractLsb' 4 4 → idField r.opcode ≠ idField q.opcode

/-- R72, R62: 227 of the 256 byte values are no opcode, all those with count = 3 and 0x00 among them, and none decodes. -/
def Obligations.UnassignedOpcodesAreRefused : Prop :=
  ((List.range 256).filter fun n => (classify (BitVec.ofNat 8 n)).isNone).length = 227 ∧
  (∀ op : Byte, countField op = 3 → classify op = none) ∧ classify 0x00#8 = none ∧
  ∀ (op : Byte) (rest : List Byte), classify op = none → decode (op :: rest) = .error (.noInstruction op)

/-- Words written out from the encodings of R70, R100 to R190, one family each, decode to their instructions. -/
def Obligations.WordsOfTheSpecDecode : Prop :=
  decode [0x82, 0x00, 0x08] = .ok (.ldi 0 8, []) ∧ decode [0x84, 0x00, 0x01] = .ok (.st 0 1, []) ∧
  decode [0x47, 0x03] = .ok (.prn 3, []) ∧ decode [0x46, 0x02] = .ok (.pop 2, []) ∧
  decode [0x40, 0x01] = .ok (.call 1, []) ∧ decode [0x42, 0x02] = .ok (.int 2, []) ∧ decode [0x13] = .ok (.iret, []) ∧
  decode [0x4A, 0x03] = .ok (.jne 3, []) ∧ decode [0xB7, 0x01, 0x02] = .ok (.cmp 1 2, []) ∧
  decode [0x69, 0x00] = .ok (.not 0, []) ∧ decode [0x01] = .ok (.hlt, [])

/-! ### Memory -/

/-- R41, R43: a read after a write gives the byte written at its address and is as before everywhere else, nothing but
memory changes, and memory keeps its canonical form. -/
def Obligations.MemoryWriteChangesOneByte : Prop :=
  ∀ (s : State) (addr v : Byte), Memory.wf s.mem →
    (s.write addr v).read addr = v ∧ (∀ b, b ≠ addr → (s.write addr v).read b = s.read b) ∧
    Memory.wf (s.write addr v).mem ∧ s.write addr v = { s with mem := (s.write addr v).mem }

/-- R51, R251: a byte ST puts at the next instruction's address is the opcode the very next step fetches. -/
def Obligations.NextFetchSeesStoredByte : Prop :=
  ∀ (s : State) (a b : Byte) (ra rb : RegIdx) (i : Instr), Memory.wf s.mem → s.status = .running →
    Names a ra → Names b rb → Fits 3 s → s.reg ra = s.pc + 3 → s.reg rb = opcodeByte i → operandBytes i = [] →
    ∃ t, exec (.st a b) s = .next t ∧ step t = exec i t

/-! ### Data movement and output -/

/-- R100. -/
def Obligations.LdiLoadsImmediate : Prop :=
  ∀ (s : State) (a imm : Byte) (r : RegIdx), Names a r → Fits 3 s →
    encode (.ldi a imm) = [0x82#8, a, imm] ∧
    exec (.ldi a imm) s = .next { s with regs := s.regs.set r.val imm, pc := s.pc + 3 }

/-- R101. -/
def Obligations.LdLoadsFromRegisterAddress : Prop :=
  ∀ (s : State) (a b : Byte) (ra rb : RegIdx), Names a ra → Names b rb → Fits 3 s →
    encode (.ld a b) = [0x83#8, a, b] ∧
    exec (.ld a b) s = .next { s with regs := s.regs.set ra.val (s.read (s.reg rb)), pc := s.pc + 3 }

/-- R102. -/
def Obligations.StStoresToRegisterAddress : Prop :=
  ∀ (s : State) (a b : Byte) (ra rb : RegIdx), Memory.wf s.mem → Names a ra → Names b rb → Fits 3 s →
    encode (.st a b) = [0x84#8, a, b] ∧
    ∃ t, exec (.st a b) s = .next t ∧ t = { s with mem := t.mem, pc := s.pc + 3 } ∧
      ∀ addr, t.read addr = if addr = s.reg ra then s.reg rb else s.read addr

/-- R111, R112: the event of the kind, with the register's byte, goes to the end of the trace. -/
def Obligations.PrnAndPraEmitTheirByte : Prop :=
  ∀ (s : State) (a : Byte) (r : RegIdx), Names a r → Fits 2 s →
    encode (.prn a) = [0x47#8, a] ∧ encode (.pra a) = [0x48#8, a] ∧
    exec (.prn a) s = .next { s with out := s.out ++ [.prn (s.reg r)], pc := s.pc + 2 } ∧
    exec (.pra a) s = .next { s with out := s.out ++ [.pra (s.reg r)], pc := s.pc + 2 }

/-- R110: the device shows PRN's byte as its unsigned decimal digits, without leading zeros. -/
def Obligations.PrnRendersUnsignedDecimal : Prop :=
  ∀ v : Byte, (OutEvent.prn v).render.foldl (fun n c => 10 * n + (c.toNat - 48)) 0 = v.toNat ∧
    (∀ c ∈ (OutEvent.prn v).render, 48 ≤ c.toNat ∧ c.toNat ≤ 57) ∧
    ((OutEvent.prn v).render.head? = some '0' → v = 0) ∧ (OutEvent.prn 0).render = ['0']

/-! ### Stack, subroutine -/

/-- R122, R120, R124: SP wraps down by one, and the register, read after that, is written there. -/
def Obligations.PushStoresBelowStackPointer : Prop :=
  ∀ (s : State) (a : Byte) (r : RegIdx), Memory.wf s.mem → Names a r → Fits 2 s →
    encode (.push a) = [0x45#8, a] ∧
    ∃ t, exec (.push a) s = .next t ∧
      t = { s with regs := s.regs.set 7 (s.reg 7 - 1), mem := t.mem, pc := s.pc + 2 } ∧
      ∀ addr, t.read addr =
        if addr = s.reg 7 - 1 then (if r = 7 then s.reg 7 - 1 else s.reg r) else s.read addr

/-- R123, R121, R124: the byte at SP, and SP wraps up by one; POP R7 leaves the byte plus one. -/
def Obligations.PopLoadsFromStackPointer : Prop :=
  ∀ (s : State) (a : Byte) (r : RegIdx), Names a r → Fits 2 s →
    encode (.pop a) = [0x46#8, a] ∧
    exec (.pop a) s = .next { s with
      regs := if r = 7 then s.regs.set 7 (s.read (s.reg 7) + 1)
        else (s.regs.set r.val (s.read (s.reg 7))).set 7 (s.reg 7 + 1)
      pc := s.pc + 2 }

/-- R123's property: PUSH R then POP into another register, neither R7, moves the value and restores SP. -/
def Obligations.PushThenPopMovesValue : Prop :=
  ∀ (s : State) (a b : Byte) (ra rb : RegIdx), Memory.wf s.mem → Names a ra → Names b rb → ra ≠ 7 → rb ≠ 7 → Fits 4 s →
    ∃ t u, exec (.push a) s = .next t ∧ exec (.pop b) t = .next u ∧
      u = { s with regs := s.regs.set rb.val (s.reg ra), mem := t.mem, pc := s.pc + 4 }

/-- R130: the return address pc + 2 goes below SP, and the pc takes the register, read after the push. At 0xFE the return
address would be 0x100, and CALL faults. -/
def Obligations.CallPushesReturnAddressAndJumps : Prop :=
  ∀ (s : State) (a : Byte) (r : RegIdx), Memory.wf s.mem → Names a r →
    encode (.call a) = [0x40#8, a] ∧
    (Fits 2 s → ∃ t, exec (.call a) s = .next t ∧
      t = { s with regs := s.regs.set 7 (s.reg 7 - 1), mem := t.mem, pc := if r = 7 then s.reg 7 - 1 else s.reg r } ∧
      ∀ addr, t.read addr = if addr = s.reg 7 - 1 then s.pc + 2 else s.read addr) ∧
    (s.pc = 0xFE#8 → exec (.call a) s = .next (faultBy (.call a) s .addressing .returnAddress 256))

/-- R131: at any pc, 0xFF too. -/
def Obligations.RetPopsThePc : Prop :=
  encode .ret = [0x02#8] ∧
  ∀ s : State, exec .ret s = .next { s with regs := s.regs.set 7 (s.reg 7 + 1), pc := s.read (s.reg 7) }

/-- R130, R131: a RET from any state whose SP and top of stack are as CALL left them goes to the instruction after the
CALL, with SP as before it. -/
def Obligations.RetReturnsAfterCall : Prop :=
  ∀ (s h : State) (a : Byte) (r : RegIdx), Memory.wf s.mem → Names a r → Fits 2 s →
    ∃ t, exec (.call a) s = .next t ∧
      (h.reg 7 = t.reg 7 → h.read (t.reg 7) = t.read (t.reg 7) →
        exec .ret h = .next { h with regs := h.regs.set 7 (s.reg 7), pc := s.pc + 2 })

/-! ### Interrupt -/

/-- R141, R140: the ten bytes of the frame, SP below them, and the pc from the number's vector slot, read after the
pushes; FL is saved and kept. An interrupt number above 7 has no slot, and at 0xFE the return address would be 0x100: then
INT faults and commits nothing. -/
def Obligations.IntPushesFrameAndVectors : Prop :=
  ∀ (s : State) (a : Byte) (r : RegIdx), Memory.wf s.mem → Names a r →
    let n := interruptNumber s r
    encode (.int a) = [0x42#8, a] ∧
    (Fits 2 s → n.toNat < 8 → ∃ t, exec (.int a) s = .next t ∧
      t = { s with regs := s.regs.set 7 (s.reg 7 - 10), mem := t.mem, pc := afterFrame s (0xF8#8 + n) } ∧
      ∀ addr, t.read addr = afterFrame s addr) ∧
    (Fits 2 s → 8 ≤ n.toNat → exec (.int a) s = .next (faultBy (.int a) s .addressing .vector (0xF8 + n.toNat))) ∧
    (s.pc = 0xFE#8 → exec (.int a) s = .next (faultBy (.int a) s .addressing .returnAddress 256))

/-- R142: with m the byte at SP, the saved R7, the frame is walked from m + 1: R6 down to R0, FL, and the pc. -/
def Obligations.IretRestoresFromTheFrame : Prop :=
  encode .iret = [0x13#8] ∧
  ∀ s : State,
    let m := s.read (s.reg 7)
    let t := s.read (m + 8)
    exec .iret s = .next { s with
      regs := #v[s.read (m + 7), s.read (m + 6), s.read (m + 5), s.read (m + 4), s.read (m + 3), s.read (m + 2),
        s.read (m + 1), m + 10]
      fl := ⟨t.getLsbD 0, t.getLsbD 1, t.getLsbD 2⟩
      pc := s.read (m + 9) }

/-- The interrupt round trip: from any state of the handler whose SP is where INT left it and whose frame bytes are
untouched, IRET gives back every register, FL and the next instruction's address, and changes nothing else. -/
def Obligations.IretUndoesInt : Prop :=
  ∀ (s h : State) (a : Byte) (r : RegIdx), Memory.wf s.mem → Names a r → Fits 2 s → (interruptNumber s r).toNat < 8 →
    ∃ t, exec (.int a) s = .next t ∧
      (h.reg 7 = t.reg 7 → (∀ addr ∈ frameAddresses (s.reg 7), h.read addr = t.read addr) →
        exec .iret h = .next { h with regs := s.regs, fl := s.fl, pc := s.pc + 2 })

/-- R24: the byte image of FL, and R142's reading of a popped byte, which drops bits 7-3. -/
def Obligations.FlagsByteHoldsLGE : Prop :=
  (∀ f : Flags, f.toByte.toNat = flagsNumber f ∧ Flags.ofByte f.toByte = f) ∧
  ∀ t : Byte, (Flags.ofByte t).toByte = t &&& 7

/-! ### Jumps -/

/-- R150: always, and never an advancement. -/
def Obligations.JmpAssignsThePc : Prop :=
  ∀ (s : State) (a : Byte) (r : RegIdx), Names a r → encode (.jmp a) = [0x44#8, a] ∧ exec (.jmp a) s = .next { s with pc := s.reg r }

/-- R151 to R154: taken on E, not E, G and L; a jump that is not taken goes to pc + 2. -/
def Obligations.ConditionalJumpsFollowTheirFlag : Prop :=
  ∀ (s : State) (a : Byte) (r : RegIdx), Names a r →
    encode (.jeq a) = [0x49#8, a] ∧ encode (.jne a) = [0x4A#8, a] ∧
    encode (.jgt a) = [0x4B#8, a] ∧ encode (.jlt a) = [0x4C#8, a] ∧
    (s.fl.e = true → exec (.jeq a) s = .next { s with pc := s.reg r }) ∧
    (s.fl.e = false → Fits 2 s → exec (.jeq a) s = .next { s with pc := s.pc + 2 }) ∧
    (s.fl.e = false → exec (.jne a) s = .next { s with pc := s.reg r }) ∧
    (s.fl.e = true → Fits 2 s → exec (.jne a) s = .next { s with pc := s.pc + 2 }) ∧
    (s.fl.g = true → exec (.jgt a) s = .next { s with pc := s.reg r }) ∧
    (s.fl.g = false → Fits 2 s → exec (.jgt a) s = .next { s with pc := s.pc + 2 }) ∧
    (s.fl.l = true → exec (.jlt a) s = .next { s with pc := s.reg r }) ∧
    (s.fl.l = false → Fits 2 s → exec (.jlt a) s = .next { s with pc := s.pc + 2 })

/-! ### ALU -/

/-- R161 to R163: exact results modulo 256. -/
def Obligations.AddSubMulWrapModulo256 : Prop :=
  ∀ (s : State) (a b : Byte) (ra rb : RegIdx), Names a ra → Names b rb → Fits 3 s →
    let x := (s.reg ra).toNat
    let y := (s.reg rb).toNat
    encode (.add a b) = [0xA0#8, a, b] ∧ encode (.sub a b) = [0xA1#8, a, b] ∧ encode (.mul a b) = [0xA2#8, a, b] ∧
    exec (.add a b) s = .next { s with regs := s.regs.set ra.val (BitVec.ofNat 8 ((x + y) % 256)), pc := s.pc + 3 } ∧
    exec (.sub a b) s = .next { s with regs := s.regs.set ra.val (BitVec.ofNat 8 ((x + 256 - y) % 256)), pc := s.pc + 3 } ∧
    exec (.mul a b) s = .next { s with regs := s.regs.set ra.val (BitVec.ofNat 8 (x * y % 256)), pc := s.pc + 3 }

/-- R164, R165, R203: quotient and remainder, with x = q*y + r and 0 <= r < y. A zero divisor raises NUMERIC at any pc,
before the advancement is checked. -/
def Obligations.DivAndModDivideOrFault : Prop :=
  ∀ (s : State) (a b : Byte) (ra rb : RegIdx), Names a ra → Names b rb →
    encode (.div a b) = [0xA3#8, a, b] ∧ encode (.mod a b) = [0xA4#8, a, b] ∧
    (Fits 3 s → s.reg rb ≠ 0#8 → ∃ q r : Byte,
      exec (.div a b) s = .next { s with regs := s.regs.set ra.val q, pc := s.pc + 3 } ∧
      exec (.mod a b) s = .next { s with regs := s.regs.set ra.val r, pc := s.pc + 3 } ∧
      (s.reg ra).toNat = q.toNat * (s.reg rb).toNat + r.toNat ∧ r.toNat < (s.reg rb).toNat) ∧
    (s.reg rb = 0#8 →
      exec (.div a b) s = .next (faultBy (.div a b) s .numeric .noCause 0) ∧
      exec (.mod a b) s = .next (faultBy (.mod a b) s .numeric .noCause 0))

/-- R166, R167, R172. -/
def Obligations.IncDecNotChangeOneRegister : Prop :=
  ∀ (s : State) (a : Byte) (r : RegIdx), Names a r → Fits 2 s →
    let x := (s.reg r).toNat
    encode (.inc a) = [0x65#8, a] ∧ encode (.dec a) = [0x66#8, a] ∧ encode (.not a) = [0x69#8, a] ∧
    exec (.inc a) s = .next { s with regs := s.regs.set r.val (BitVec.ofNat 8 ((x + 1) % 256)), pc := s.pc + 2 } ∧
    exec (.dec a) s = .next { s with regs := s.regs.set r.val (BitVec.ofNat 8 ((x + 255) % 256)), pc := s.pc + 2 } ∧
    exec (.not a) s = .next { s with regs := s.regs.set r.val (BitVec.ofNat 8 (255 - x)), pc := s.pc + 2 }

/-- R169 to R171, bit by bit. -/
def Obligations.AndOrXorActBitByBit : Prop :=
  ∀ (s : State) (a b : Byte) (ra rb : RegIdx), Names a ra → Names b rb → Fits 3 s →
    encode (.and a b) = [0xA8#8, a, b] ∧ encode (.or a b) = [0xAA#8, a, b] ∧ encode (.xor a b) = [0xAB#8, a, b] ∧
    ∃ u v w : Byte,
      exec (.and a b) s = .next { s with regs := s.regs.set ra.val u, pc := s.pc + 3 } ∧
      exec (.or a b) s = .next { s with regs := s.regs.set ra.val v, pc := s.pc + 3 } ∧
      exec (.xor a b) s = .next { s with regs := s.regs.set ra.val w, pc := s.pc + 3 } ∧
      ∀ k, k < 8 →
        u.getLsbD k = ((s.reg ra).getLsbD k && (s.reg rb).getLsbD k) ∧
        v.getLsbD k = ((s.reg ra).getLsbD k || (s.reg rb).getLsbD k) ∧
        w.getLsbD k = ((s.reg ra).getLsbD k != (s.reg rb).getLsbD k)

/-- R168, R25: all three flags from the unsigned order, exactly one set, and no register written. -/
def Obligations.CmpSetsExactlyOneFlag : Prop :=
  ∀ (s : State) (a b : Byte) (ra rb : RegIdx), Names a ra → Names b rb → Fits 3 s →
    encode (.cmp a b) = [0xB7#8, a, b] ∧
    ∃ f : Flags, exec (.cmp a b) s = .next { s with fl := f, pc := s.pc + 3 } ∧
      (f.e = true ↔ (s.reg ra).toNat = (s.reg rb).toNat) ∧
      (f.g = true ↔ (s.reg ra).toNat > (s.reg rb).toNat) ∧
      (f.l = true ↔ (s.reg ra).toNat < (s.reg rb).toNat) ∧
      f.e.toNat + f.g.toNat + f.l.toNat = 1

/-! ### Halt and the host's operations -/

/-- R190: at any pc, 0xFF too; the pc stays. -/
def Obligations.HltHaltsInPlace : Prop := encode .hlt = [0x01#8] ∧ ∀ s : State, exec .hlt s = .next { s with status := .halted }

/-- R234: the image's bytes from address 0, zeros beyond it, nothing else changed, and an image over 256 bytes refused. -/
def Obligations.LoadPlacesTheImage : Prop :=
  ∀ (gpr : Vector Byte 7) (image : List Byte),
    let s := State.resetWith gpr Flags.clear
    (image.length ≤ 256 → ∃ t, s.load image = some t ∧ t = { s with mem := t.mem } ∧
      ∀ addr : Byte, t.read addr = image.getD addr.toNat 0) ∧
    (256 < image.length → s.load image = none)

/-- R240, R241: load performs R234, and is legal exactly while no step has been taken since the last reset and the image
fits. A step, and a run with any fuel, ends that; no operation but reset, which is always legal, brings it back, and load,
inspect and a run without fuel leave it as it is. That an illegal load answers none, and that a step or a run with fuel
counts on a HALTED or FAULTED machine too, are the model's choices (DESIGN CHOICE, log entry 9). -/
def Obligations.LoadIsLegalOnlyBeforeFirstStep : Prop :=
  ∀ (gpr : Vector Byte 7) (h : Session),
    Session.perform gpr h .reset = some (Session.fresh gpr, .done) ∧ (Session.fresh gpr).stepped = false ∧
    (∀ image, (Session.perform gpr h (.load image)).isSome = true ↔ h.stepped = false ∧ image.length ≤ 256) ∧
    (∀ image h' reply, Session.perform gpr h (.load image) = some (h', reply) →
      h.machine.load image = some h'.machine ∧ h'.stepped = h.stepped) ∧
    (∃ h' reply, Session.perform gpr h .step = some (h', reply) ∧ h'.stepped = true) ∧
    (∀ fuel, ∃ h' reply, Session.perform gpr h (.run fuel) = some (h', reply) ∧ h'.stepped = (h.stepped || decide (0 < fuel))) ∧
    (∃ reply, Session.perform gpr h .inspect = some (h, reply)) ∧
    ∀ command h' reply, Session.perform gpr h command = some (h', reply) → command ≠ .reset →
      h.stepped = true → h'.stepped = true

/-- R243, R86: a run is its steps in order: it stops at a terminal status, runs out only while RUNNING, and a longer run
goes on from where a shorter one ended. -/
def Obligations.RunRepeatsStepUntilTerminal : Prop :=
  ∀ (s : State) (m n : Nat),
    run (m + n) s = run n (run m s).1 ∧
    ((run m s).2 = .outOfFuel ↔ (run m s).1.status = .running) ∧
    (s.status ≠ .running → run m s = (s, .ended s.status)) ∧
    ∀ t, s.status = .running → step s = .next t → run 1 s = run 0 t

/-- R74: the assembly text of a well-formed instruction assembles to the instruction's bytes. -/
def Obligations.AssemblyTextAssembles : Prop := ∀ i : Instr, i.wf = true → assemble (assemblyText i) = some (encode i)
end

