-- ==== Sys2Proof/Laws/State.lean ====
section
/-! SUPPORT. The named updates of a state, field by field, and what registers and memory read after each of them. -/

namespace Sys2Proof.Machine

@[simp] theorem memSize_eq : Config.memSize = 256 := rfl
@[simp] theorem nreg_eq : Config.nreg = 8 := rfl
@[simp] theorem vectorBase_eq : Config.vectorBase = 248 := rfl
@[simp] theorem numInt_eq : Config.numInt = 8 := rfl

@[simp] theorem State.setReg_regs (s : State) (r : RegIdx) (v : Byte) : (s.setReg r v).regs = s.regs.set r.val v := rfl
@[simp] theorem State.setReg_pc (s : State) (r : RegIdx) (v : Byte) : (s.setReg r v).pc = s.pc := rfl
@[simp] theorem State.setReg_fl (s : State) (r : RegIdx) (v : Byte) : (s.setReg r v).fl = s.fl := rfl
@[simp] theorem State.setReg_mem (s : State) (r : RegIdx) (v : Byte) : (s.setReg r v).mem = s.mem := rfl
@[simp] theorem State.setReg_status (s : State) (r : RegIdx) (v : Byte) : (s.setReg r v).status = s.status := rfl
@[simp] theorem State.setReg_fault (s : State) (r : RegIdx) (v : Byte) : (s.setReg r v).fault = s.fault := rfl
@[simp] theorem State.setReg_out (s : State) (r : RegIdx) (v : Byte) : (s.setReg r v).out = s.out := rfl
@[simp] theorem State.setReg_read (s : State) (r : RegIdx) (v : Byte) (b : Byte) : (s.setReg r v).read b = s.read b := rfl

@[simp] theorem State.setPc_regs (s : State) (v : Byte) : (s.setPc v).regs = s.regs := rfl
@[simp] theorem State.setPc_pc (s : State) (v : Byte) : (s.setPc v).pc = v := rfl
@[simp] theorem State.setPc_fl (s : State) (v : Byte) : (s.setPc v).fl = s.fl := rfl
@[simp] theorem State.setPc_mem (s : State) (v : Byte) : (s.setPc v).mem = s.mem := rfl
@[simp] theorem State.setPc_status (s : State) (v : Byte) : (s.setPc v).status = s.status := rfl
@[simp] theorem State.setPc_fault (s : State) (v : Byte) : (s.setPc v).fault = s.fault := rfl
@[simp] theorem State.setPc_out (s : State) (v : Byte) : (s.setPc v).out = s.out := rfl
@[simp] theorem State.setPc_reg (s : State) (v : Byte) (q : RegIdx) : (s.setPc v).reg q = s.reg q := rfl
@[simp] theorem State.setPc_read (s : State) (v : Byte) (b : Byte) : (s.setPc v).read b = s.read b := rfl

@[simp] theorem State.setFlags_regs (s : State) (f : Flags) : (s.setFlags f).regs = s.regs := rfl
@[simp] theorem State.setFlags_pc (s : State) (f : Flags) : (s.setFlags f).pc = s.pc := rfl
@[simp] theorem State.setFlags_fl (s : State) (f : Flags) : (s.setFlags f).fl = f := rfl
@[simp] theorem State.setFlags_mem (s : State) (f : Flags) : (s.setFlags f).mem = s.mem := rfl
@[simp] theorem State.setFlags_status (s : State) (f : Flags) : (s.setFlags f).status = s.status := rfl
@[simp] theorem State.setFlags_fault (s : State) (f : Flags) : (s.setFlags f).fault = s.fault := rfl
@[simp] theorem State.setFlags_out (s : State) (f : Flags) : (s.setFlags f).out = s.out := rfl
@[simp] theorem State.setFlags_reg (s : State) (f : Flags) (q : RegIdx) : (s.setFlags f).reg q = s.reg q := rfl
@[simp] theorem State.setFlags_read (s : State) (f : Flags) (b : Byte) : (s.setFlags f).read b = s.read b := rfl

@[simp] theorem State.emit_regs (s : State) (e : OutEvent) : (s.emit e).regs = s.regs := rfl
@[simp] theorem State.emit_pc (s : State) (e : OutEvent) : (s.emit e).pc = s.pc := rfl
@[simp] theorem State.emit_fl (s : State) (e : OutEvent) : (s.emit e).fl = s.fl := rfl
@[simp] theorem State.emit_mem (s : State) (e : OutEvent) : (s.emit e).mem = s.mem := rfl
@[simp] theorem State.emit_status (s : State) (e : OutEvent) : (s.emit e).status = s.status := rfl
@[simp] theorem State.emit_fault (s : State) (e : OutEvent) : (s.emit e).fault = s.fault := rfl
@[simp] theorem State.emit_out (s : State) (e : OutEvent) : (s.emit e).out = s.out ++ [e] := rfl
@[simp] theorem State.emit_reg (s : State) (e : OutEvent) (q : RegIdx) : (s.emit e).reg q = s.reg q := rfl
@[simp] theorem State.emit_read (s : State) (e : OutEvent) (b : Byte) : (s.emit e).read b = s.read b := rfl

@[simp] theorem State.halt_regs (s : State) : s.halt.regs = s.regs := rfl
@[simp] theorem State.halt_pc (s : State) : s.halt.pc = s.pc := rfl
@[simp] theorem State.halt_fl (s : State) : s.halt.fl = s.fl := rfl
@[simp] theorem State.halt_mem (s : State) : s.halt.mem = s.mem := rfl
@[simp] theorem State.halt_status (s : State) : s.halt.status = .halted := rfl
@[simp] theorem State.halt_fault (s : State) : s.halt.fault = s.fault := rfl
@[simp] theorem State.halt_out (s : State) : s.halt.out = s.out := rfl
@[simp] theorem State.halt_reg (s : State) (q : RegIdx) : s.halt.reg q = s.reg q := rfl
@[simp] theorem State.halt_read (s : State) (b : Byte) : s.halt.read b = s.read b := rfl

@[simp] theorem State.takeFault_regs (s : State) (f : FaultRecord) : (s.takeFault f).regs = s.regs := rfl
@[simp] theorem State.takeFault_pc (s : State) (f : FaultRecord) : (s.takeFault f).pc = s.pc := rfl
@[simp] theorem State.takeFault_fl (s : State) (f : FaultRecord) : (s.takeFault f).fl = s.fl := rfl
@[simp] theorem State.takeFault_mem (s : State) (f : FaultRecord) : (s.takeFault f).mem = s.mem := rfl
@[simp] theorem State.takeFault_status (s : State) (f : FaultRecord) : (s.takeFault f).status = .faulted := rfl
@[simp] theorem State.takeFault_fault (s : State) (f : FaultRecord) : (s.takeFault f).fault = some f := rfl
@[simp] theorem State.takeFault_out (s : State) (f : FaultRecord) : (s.takeFault f).out = s.out := rfl
@[simp] theorem State.takeFault_reg (s : State) (f : FaultRecord) (q : RegIdx) : (s.takeFault f).reg q = s.reg q := rfl
@[simp] theorem State.takeFault_read (s : State) (f : FaultRecord) (b : Byte) : (s.takeFault f).read b = s.read b := rfl

@[simp] theorem State.write_regs (s : State) (a v : Byte) : (s.write a v).regs = s.regs := rfl
@[simp] theorem State.write_pc (s : State) (a v : Byte) : (s.write a v).pc = s.pc := rfl
@[simp] theorem State.write_fl (s : State) (a v : Byte) : (s.write a v).fl = s.fl := rfl
@[simp] theorem State.write_mem (s : State) (a v : Byte) : (s.write a v).mem = s.mem.write a.toNat v := rfl
@[simp] theorem State.write_status (s : State) (a v : Byte) : (s.write a v).status = s.status := rfl
@[simp] theorem State.write_fault (s : State) (a v : Byte) : (s.write a v).fault = s.fault := rfl
@[simp] theorem State.write_out (s : State) (a v : Byte) : (s.write a v).out = s.out := rfl
@[simp] theorem State.write_reg (s : State) (a v : Byte) (q : RegIdx) : (s.write a v).reg q = s.reg q := rfl

theorem State.reg_eq (s : State) (r : RegIdx) : s.reg r = s.regs[r.val] := rfl

@[simp] theorem State.setReg_reg_same (s : State) (r : RegIdx) (v : Byte) : (s.setReg r v).reg r = v := by
  simp [State.reg, State.setReg]

@[simp] theorem State.setReg_reg_other (s : State) {r q : RegIdx} (v : Byte) (h : q ≠ r) :
    (s.setReg r v).reg q = s.reg q := by
  have h' : r.val ≠ q.val := fun e => h (Fin.ext e.symm)
  simp [State.reg, State.setReg, Vector.getElem_set_ne, h']

theorem State.setReg_reg (s : State) (r q : RegIdx) (v : Byte) :
    (s.setReg r v).reg q = if q = r then v else s.reg q := by
  by_cases h : q = r
  · subst h; simp
  · simp [h]

/-- Two register files are equal when every register reads the same. -/
theorem regs_ext {u v : Vector Byte 8} (h : ∀ r : RegIdx, u[r.val] = v[r.val]) : u = v :=
  Vector.ext fun i hi => h ⟨i, hi⟩

end Sys2Proof.Machine
end

