-- ==== Sys2Proof/Laws/Memory.lean ====
section
/-! SUPPORT. Memory: a read after a write, and that every memory operation keeps the canonical form (20_memory.md R41, R43). -/

namespace Sys2Proof.Machine

@[simp] theorem Memory.read_nil (n : Nat) : Memory.read [] n = 0#8 := rfl

theorem Memory.read_cons (k : Nat) (v : Byte) (m : Memory) (n : Nat) :
    Memory.read ((k, v) :: m) n = if k = n then v else Memory.read m n := rfl

/-- An address that is not listed reads as 0. -/
theorem Memory.read_unlisted {m : Memory} {n : Nat} (h : ∀ c ∈ m, c.1 ≠ n) : m.read n = 0#8 := by
  induction m with
  | nil => rfl
  | cons c m ih =>
    rw [Memory.read_cons, if_neg (h c (by simp)), ih fun d hd => h d (by simp [hd])]

theorem Memory.wf_iff {m : Memory} :
    Memory.wf m = true ↔ m.Pairwise (fun c d => c.1 < d.1) ∧ ∀ c ∈ m, c.1 < 256 ∧ c.2 ≠ 0#8 := by
  simp [Memory.wf]

@[simp] theorem Memory.wf_nil : Memory.wf [] = true := rfl

theorem Memory.wf_tail {c : Host.Cell} {m : Memory} (h : Memory.wf (c :: m) = true) : Memory.wf m = true := by
  rw [Memory.wf_iff] at h ⊢
  exact ⟨(List.pairwise_cons.1 h.1).2, fun d hd => h.2 d (by simp [hd])⟩

/-- A write leaves every other address alone; no premise on the memory is needed. -/
theorem Memory.read_write_other (m : Memory) {n k : Nat} (v : Byte) (h : k ≠ n) :
    (m.write n v).read k = m.read k := by
  induction m with
  | nil =>
    unfold Memory.write
    split <;> simp [Memory.read, h.symm]
  | cons c m ih =>
    obtain ⟨j, w⟩ := c
    unfold Memory.write
    split
    · split <;> simp [Memory.read, h.symm]
    · split
      · rename_i hj
        subst hj
        split <;> simp [Memory.read, h.symm]
      · simp [Memory.read, ih]

/-- A read at the address just written gives the value written, in canonical memory. -/
theorem Memory.read_write_same {m : Memory} (hm : Memory.wf m) (n : Nat) (v : Byte) :
    (m.write n v).read n = v := by
  induction m with
  | nil =>
    unfold Memory.write
    split <;> simp_all [Memory.read]
  | cons c m ih =>
    obtain ⟨j, w⟩ := c
    have above : ∀ d ∈ m, j < d.1 := fun d hd => (List.pairwise_cons.1 (Memory.wf_iff.1 hm).1).1 d hd
    unfold Memory.write
    split
    · rename_i hj
      split
      · rename_i hv
        rw [hv]
        refine Memory.read_unlisted fun d hd => ?_
        rcases List.mem_cons.1 hd with rfl | hd
        · exact Nat.ne_of_gt hj
        · exact Nat.ne_of_gt (Nat.lt_trans hj (above d hd))
      · simp [Memory.read]
    · split
      · rename_i hj
        subst hj
        split
        · rename_i hv
          rw [hv]
          exact Memory.read_unlisted fun d hd => Nat.ne_of_gt (above d hd)
        · simp [Memory.read]
      · rename_i hj
        rw [Memory.read_cons, if_neg hj, ih (Memory.wf_tail hm)]

theorem Memory.read_write {m : Memory} (hm : Memory.wf m) (n k : Nat) (v : Byte) :
    (m.write n v).read k = if k = n then v else m.read k := by
  split
  · next h => rw [h, Memory.read_write_same hm]
  · next h => exact Memory.read_write_other m v h

/-- Every entry after a write is the written one or one that was there. -/
theorem Memory.mem_write {m : Memory} {n : Nat} {v : Byte} {c : Host.Cell} (h : c ∈ m.write n v) :
    (c = (n, v) ∧ v ≠ 0#8) ∨ c ∈ m := by
  induction m with
  | nil =>
    unfold Memory.write at h
    split at h <;> simp_all
  | cons d m ih =>
    obtain ⟨j, w⟩ := d
    unfold Memory.write at h
    split at h
    · split at h
      · exact .inr h
      · rcases List.mem_cons.1 h with rfl | h
        · exact .inl ⟨rfl, ‹_›⟩
        · exact .inr h
    · split at h
      · split at h
        · exact .inr (by simp [h])
        · rcases List.mem_cons.1 h with rfl | h
          · exact .inl ⟨rfl, ‹_›⟩
          · exact .inr (by simp [h])
      · rcases List.mem_cons.1 h with rfl | h
        · exact .inr (by simp)
        · rcases ih h with h | h
          · exact .inl h
          · exact .inr (by simp [h])

/-- A write inside memory keeps the canonical form. -/
theorem Memory.write_wf {m : Memory} (hm : Memory.wf m) {n : Nat} (hn : n < 256) (v : Byte) :
    Memory.wf (m.write n v) := by
  refine Memory.wf_iff.2 ⟨?_, fun c hc => ?_⟩
  · induction m with
    | nil =>
      unfold Memory.write
      split <;> simp
    | cons d m ih =>
      obtain ⟨j, w⟩ := d
      obtain ⟨above, rest⟩ := List.pairwise_cons.1 (Memory.wf_iff.1 hm).1
      unfold Memory.write
      split
      · rename_i hj
        split
        · exact (Memory.wf_iff.1 hm).1
        · refine List.pairwise_cons.2 ⟨fun c hc => ?_, (Memory.wf_iff.1 hm).1⟩
          rcases List.mem_cons.1 hc with rfl | hc
          · exact hj
          · exact Nat.lt_trans hj (above c hc)
      · split
        · rename_i hj
          subst hj
          split
          · exact rest
          · exact List.pairwise_cons.2 ⟨above, rest⟩
        · rename_i hlt hne
          refine List.pairwise_cons.2 ⟨fun c hc => ?_, ih (Memory.wf_tail hm)⟩
          rcases Memory.mem_write hc with ⟨rfl, -⟩ | hc
          · show j < n
            omega
          · exact above c hc
  · rcases Memory.mem_write hc with ⟨rfl, hv⟩ | hc
    · exact ⟨hn, hv⟩
    · exact (Memory.wf_iff.1 hm).2 c hc

/-- Loading bytes keeps the canonical form. -/
theorem Memory.writeBytes_wf (bytes : List Byte) {m : Memory} (hm : Memory.wf m) (n : Nat) :
    Memory.wf (m.writeBytes n bytes) := by
  induction bytes generalizing m n with
  | nil => exact hm
  | cons v vs ih =>
    unfold Memory.writeBytes
    split
    · exact ih (Memory.write_wf hm ‹_› v) _
    · exact ih hm _

@[simp] theorem State.write_read_other (s : State) {a b : Byte} (v : Byte) (h : b ≠ a) :
    (s.write a v).read b = s.read b :=
  Memory.read_write_other s.mem v fun e => h (BitVec.eq_of_toNat_eq e)

theorem State.write_read_same {s : State} (hm : Memory.wf s.mem) (a v : Byte) : (s.write a v).read a = v :=
  Memory.read_write_same hm _ v

theorem State.write_read {s : State} (hm : Memory.wf s.mem) (a b v : Byte) :
    (s.write a v).read b = if b = a then v else s.read b := by
  by_cases h : b = a
  · rw [if_pos h, h, State.write_read_same hm]
  · rw [if_neg h, State.write_read_other s v h]

theorem State.write_wf {s : State} (hm : Memory.wf s.mem) (a v : Byte) : Memory.wf (s.write a v).mem :=
  Memory.write_wf hm a.isLt v

end Sys2Proof.Machine
end

