-- ==== Sys2Proof/Laws/Ops.lean ====
section
/-! SUPPORT. Each shared operation of the machine, said once: what it answers, and what it changes. -/

namespace Sys2Proof.Machine

/-! ### The stack -/

theorem State.pushVal_eq (s : State) (v : Byte) :
    s.pushVal v = { s with regs := s.regs.set SP.val (s.reg SP - 1), mem := s.mem.write (s.reg SP - 1).toNat v } := by
  simp [State.pushVal, State.setReg, State.write, State.reg]

theorem State.pushReg_eq (s : State) (r : RegIdx) :
    s.pushReg r = s.pushVal (if r = SP then s.reg SP - 1 else s.reg r) := by
  simp only [State.pushReg, State.pushVal, State.setReg_reg]

@[simp] theorem State.pushVal_pc (s : State) (v : Byte) : (s.pushVal v).pc = s.pc := rfl
@[simp] theorem State.pushVal_fl (s : State) (v : Byte) : (s.pushVal v).fl = s.fl := rfl
@[simp] theorem State.pushVal_status (s : State) (v : Byte) : (s.pushVal v).status = s.status := rfl
@[simp] theorem State.pushVal_fault (s : State) (v : Byte) : (s.pushVal v).fault = s.fault := rfl
@[simp] theorem State.pushVal_out (s : State) (v : Byte) : (s.pushVal v).out = s.out := rfl
@[simp] theorem State.pushReg_pc (s : State) (r : RegIdx) : (s.pushReg r).pc = s.pc := rfl
@[simp] theorem State.pushReg_fl (s : State) (r : RegIdx) : (s.pushReg r).fl = s.fl := rfl
@[simp] theorem State.pushReg_status (s : State) (r : RegIdx) : (s.pushReg r).status = s.status := rfl
@[simp] theorem State.pushReg_fault (s : State) (r : RegIdx) : (s.pushReg r).fault = s.fault := rfl
@[simp] theorem State.pushReg_out (s : State) (r : RegIdx) : (s.pushReg r).out = s.out := rfl
@[simp] theorem State.popReg_pc (s : State) (r : RegIdx) : (s.popReg r).pc = s.pc := rfl
@[simp] theorem State.popReg_fl (s : State) (r : RegIdx) : (s.popReg r).fl = s.fl := rfl
@[simp] theorem State.popReg_status (s : State) (r : RegIdx) : (s.popReg r).status = s.status := rfl
@[simp] theorem State.popReg_fault (s : State) (r : RegIdx) : (s.popReg r).fault = s.fault := rfl
@[simp] theorem State.popReg_out (s : State) (r : RegIdx) : (s.popReg r).out = s.out := rfl
@[simp] theorem State.popReg_mem (s : State) (r : RegIdx) : (s.popReg r).mem = s.mem := rfl

@[simp] theorem State.popReg_read (s : State) (r : RegIdx) (b : Byte) : (s.popReg r).read b = s.read b := rfl

theorem State.popVal_eq (s : State) : s.popVal = (s.read (s.reg SP), s.setReg SP (s.reg SP + 1)) := rfl

theorem State.popReg_eq (s : State) (r : RegIdx) :
    s.popReg r =
      if r = SP then s.setReg SP (s.read (s.reg SP) + 1)
      else (s.setReg r (s.read (s.reg SP))).setReg SP (s.reg SP + 1) := by
  unfold State.popReg
  split
  · next h =>
    subst h
    dsimp only
    rw [State.setReg_reg_same]
    simp [State.setReg]
  · next h =>
    dsimp only
    rw [State.setReg_reg_other _ _ (fun e => h e.symm)]

theorem State.pushVal_reg (s : State) (v : Byte) (q : RegIdx) :
    (s.pushVal v).reg q = if q = SP then s.reg SP - 1 else s.reg q :=
  State.setReg_reg s SP q (s.reg SP - 1)

theorem State.pushReg_reg (s : State) (r q : RegIdx) :
    (s.pushReg r).reg q = if q = SP then s.reg SP - 1 else s.reg q := by
  rw [State.pushReg_eq, State.pushVal_reg]

theorem State.pushVal_wf {s : State} (hm : Memory.wf s.mem) (v : Byte) : Memory.wf (s.pushVal v).mem := by
  rw [State.pushVal_eq]
  exact Memory.write_wf hm (s.reg SP - 1).isLt v

theorem State.pushVal_read {s : State} (hm : Memory.wf s.mem) (v b : Byte) :
    (s.pushVal v).read b = if b = s.reg SP - 1 then v else s.read b := by
  rw [State.pushVal_eq]
  exact State.write_read hm (s.reg SP - 1) b v

theorem State.pushVal_read_other (s : State) (v : Byte) {b : Byte} (h : b ≠ s.reg SP - 1) :
    (s.pushVal v).read b = s.read b := by
  rw [State.pushVal_eq]
  exact State.write_read_other s v h

/-! ### Ending an instruction, raising a fault, reading operands -/

theorem raise_next (i : Instr) (s : State) (r : Raise) :
    raise i s r = .next (s.takeFault (r.record s.pc (opcodeByte i) (operandBytes i))) := rfl

/-- The advancement commits the working copy at the next instruction's address, or faults when there is none. -/
theorem advance_cases {i : Instr} {s w t : State} (h : advance i s w = .next t) :
    (s.pc.toNat + lengthOf (opcodeByte i) < 256 ∧
      t = w.setPc (BitVec.ofNat 8 (s.pc.toNat + lengthOf (opcodeByte i)))) ∨
    (256 ≤ s.pc.toNat + lengthOf (opcodeByte i) ∧
      raise i s (.pcAdvance (s.pc.toNat + lengthOf (opcodeByte i))) = .next t) := by
  unfold advance at h
  dsimp only at h
  split at h
  · next hlt =>
    cases h
    exact .inl ⟨hlt, rfl⟩
  · next hge => exact .inr ⟨by simpa using hge, h⟩

/-- Where the next instruction's address exists, the advancement commits. -/
theorem advance_next {i : Instr} (s w : State) {n : Nat} (hlen : lengthOf (opcodeByte i) = n)
    (h : s.pc.toNat + n ≤ 255) : advance i s w = .next (w.setPc (s.pc + BitVec.ofNat 8 n)) := by
  unfold advance
  simp only [hlen]
  rw [if_pos (Nat.lt_succ_of_le h), BitVec.ofNat_add, BitVec.ofNat_toNat, BitVec.setWidth_eq]

/-- Where it does not, the advancement faults. -/
theorem advance_fault {i : Instr} (s w : State) {n : Nat} (hlen : lengthOf (opcodeByte i) = n)
    (h : 255 < s.pc.toNat + n) : advance i s w = raise i s (.pcAdvance (s.pc.toNat + n)) := by
  unfold advance
  simp only [hlen]
  rw [if_neg (Nat.not_lt.2 h)]

theorem withReg_of_named {i : Instr} {s : State} {a : Byte} {k : RegIdx → Result} {r : RegIdx}
    (h : a.toNat = r.val) : withReg i s a k = k r := by
  have hlt : a.toNat < Config.nreg := h ▸ r.isLt
  unfold withReg
  rw [dif_pos hlt]
  congr 1
  exact Fin.ext h

theorem withReg_of_bad {i : Instr} {s : State} {a : Byte} {k : RegIdx → Result} (h : 8 ≤ a.toNat) :
    withReg i s a k = raise i s (.regIndex a) := by
  unfold withReg
  rw [dif_neg (Nat.not_lt.2 h)]

/-- A register operand either names a register, and the execution goes on with it, or faults. -/
theorem withReg_cases {i : Instr} {s t : State} {a : Byte} {k : RegIdx → Result} (h : withReg i s a k = .next t) :
    (∃ r : RegIdx, a.toNat = r.val ∧ k r = .next t) ∨ (8 ≤ a.toNat ∧ raise i s (.regIndex a) = .next t) := by
  unfold withReg at h
  split at h
  · next hlt => exact .inl ⟨⟨a.toNat, hlt⟩, rfl, h⟩
  · next hge => exact .inr ⟨Nat.not_lt.1 hge, h⟩

theorem withRegs_of_named {i : Instr} {s : State} {a b : Byte} {k : RegIdx → RegIdx → Result} {ra rb : RegIdx}
    (ha : a.toNat = ra.val) (hb : b.toNat = rb.val) : withRegs i s a b k = k ra rb := by
  rw [withRegs, withReg_of_named ha, withReg_of_named hb]

/-- Two register operands either both name registers, or the first that does not faults. -/
theorem withRegs_cases {i : Instr} {s t : State} {a b : Byte} {k : RegIdx → RegIdx → Result}
    (h : withRegs i s a b k = .next t) :
    (∃ ra rb : RegIdx, a.toNat = ra.val ∧ b.toNat = rb.val ∧ k ra rb = .next t) ∨
    (8 ≤ a.toNat ∧ raise i s (.regIndex a) = .next t) ∨
    (a.toNat < 8 ∧ 8 ≤ b.toNat ∧ raise i s (.regIndex b) = .next t) := by
  rcases withReg_cases h with ⟨ra, ha, h⟩ | h
  · rcases withReg_cases h with ⟨rb, hb, h⟩ | ⟨hb, h⟩
    · exact .inl ⟨ra, rb, ha, hb, h⟩
    · exact .inr (.inr ⟨ha ▸ ra.isLt, hb, h⟩)
  · exact .inr (.inl h)

/-- The return address is the next instruction's, or CALL and INT fault. -/
theorem withReturnAddress_cases {i : Instr} {s t : State} {k : Byte → Result}
    (h : withReturnAddress i s k = .next t) :
    (s.pc.toNat + lengthOf (opcodeByte i) < 256 ∧
      k (BitVec.ofNat 8 (s.pc.toNat + lengthOf (opcodeByte i))) = .next t) ∨
    (256 ≤ s.pc.toNat + lengthOf (opcodeByte i) ∧
      raise i s (.returnAddress (s.pc.toNat + lengthOf (opcodeByte i))) = .next t) := by
  unfold withReturnAddress at h
  dsimp only at h
  split at h
  · next hlt => exact .inl ⟨hlt, h⟩
  · next hge => exact .inr ⟨Nat.not_lt.1 hge, h⟩

theorem withReturnAddress_next {i : Instr} {s : State} {k : Byte → Result} {n : Nat}
    (hlen : lengthOf (opcodeByte i) = n) (h : s.pc.toNat + n ≤ 255) :
    withReturnAddress i s k = k (s.pc + BitVec.ofNat 8 n) := by
  unfold withReturnAddress
  simp only [hlen]
  rw [if_pos (Nat.lt_succ_of_le h), BitVec.ofNat_add, BitVec.ofNat_toNat, BitVec.setWidth_eq]

/-- A jump that is taken assigns the pc, one that is not advances, and a bad operand faults. -/
theorem jumpWhen_cases {i : Instr} {taken : Bool} {a : Byte} {s t : State} (h : jumpWhen i taken a s = .next t) :
    (∃ r : RegIdx, a.toNat = r.val ∧ taken = true ∧ t = s.setPc (s.reg r)) ∨
    (∃ r : RegIdx, a.toNat = r.val ∧ taken = false ∧ advance i s s = .next t) ∨
    (8 ≤ a.toNat ∧ raise i s (.regIndex a) = .next t) := by
  rcases withReg_cases h with ⟨r, hr, h⟩ | h
  · cases taken with
    | true =>
      cases h
      exact .inl ⟨r, hr, rfl, rfl⟩
    | false => exact .inr (.inl ⟨r, hr, rfl, h⟩)
  · exact .inr (.inr h)

/-! ### The interrupt frame -/

/-- Pushing the registers of a list, one after another, changes only SP and memory. -/
theorem State.pushRegs_fields (rs : List RegIdx) (s : State) :
    let w := rs.foldl State.pushReg s
    w.pc = s.pc ∧ w.fl = s.fl ∧ w.status = s.status ∧ w.fault = s.fault ∧ w.out = s.out ∧
    (∀ q, q ≠ SP → w.reg q = s.reg q) ∧ w.reg SP = s.reg SP - BitVec.ofNat 8 rs.length := by
  induction rs generalizing s with
  | nil => simp
  | cons r rs ih =>
    obtain ⟨h1, h2, h3, h4, h5, h6, h7⟩ := ih (s.pushReg r)
    refine ⟨h1.trans ?_, h2.trans ?_, h3.trans ?_, h4.trans ?_, h5.trans ?_, fun q hq => ?_, ?_⟩
    iterate 5 rw [State.pushReg_eq, State.pushVal_eq]
    · rw [List.foldl_cons, h6 q hq, State.pushReg_reg, if_neg hq]
    · rw [List.foldl_cons, h7, State.pushReg_eq, State.pushVal_reg, if_pos rfl, List.length_cons, BitVec.ofNat_add]
      generalize BitVec.ofNat 8 rs.length = n
      bv_omega

theorem State.pushRegs_wf (rs : List RegIdx) {s : State} (hm : Memory.wf s.mem) :
    Memory.wf (rs.foldl State.pushReg s).mem := by
  induction rs generalizing s with
  | nil => exact hm
  | cons r rs ih =>
    refine ih ?_
    rw [State.pushReg_eq]
    exact State.pushVal_wf hm _

/-- Saving the machine moves SP down by ten and changes nothing else but memory. -/
theorem State.pushFrame_fields (s : State) (ret : Byte) :
    let w := s.pushFrame ret
    w.pc = s.pc ∧ w.fl = s.fl ∧ w.status = s.status ∧ w.fault = s.fault ∧ w.out = s.out ∧
    (∀ q, q ≠ SP → w.reg q = s.reg q) ∧ w.reg SP = s.reg SP - 10 := by
  obtain ⟨h1, h2, h3, h4, h5, h6, h7⟩ := State.pushRegs_fields pushOrder ((s.pushVal ret).pushVal s.fl.toByte)
  refine ⟨h1, h2, h3, h4, h5, fun q hq => ?_, ?_⟩
  · rw [State.pushFrame, h6 q hq, State.pushVal_reg, if_neg hq, State.pushVal_reg, if_neg hq]
  · rw [State.pushFrame, h7, State.pushVal_reg, if_pos rfl, State.pushVal_reg, if_pos rfl]
    simp only [List.length_cons, List.length_nil]
    bv_omega

theorem State.pushFrame_wf {s : State} (hm : Memory.wf s.mem) (ret : Byte) : Memory.wf (s.pushFrame ret).mem :=
  State.pushRegs_wf _ (State.pushVal_wf (State.pushVal_wf hm _) _)

/-- A run of pushes, byte by byte. -/
theorem State.pushVals_read (bytes : List Byte) {s : State} (hm : Memory.wf s.mem) (hlen : bytes.length ≤ 256) (b : Byte) :
    (bytes.foldl State.pushVal s).read b =
      if (s.reg SP - 1 - b).toNat < bytes.length then bytes.getD (s.reg SP - 1 - b).toNat 0 else s.read b := by
  induction bytes generalizing s with
  | nil => simp
  | cons v vs ih =>
    rw [List.length_cons] at hlen
    rw [List.foldl_cons, ih (State.pushVal_wf hm v) (by omega), State.pushVal_reg, if_pos rfl, State.pushVal_read hm]
    generalize s.reg SP - 1 = top
    by_cases hb : b = top
    · subst hb
      have h : (b - 1 - b).toNat = 255 := by bv_omega
      rw [h, if_neg (by omega), if_pos rfl, BitVec.sub_self]
      simp
    · have h : (top - b).toNat = (top - 1 - b).toNat + 1 := by bv_omega
      rw [h, if_neg hb]
      simp

/-- Saving the machine pushes ten bytes: the return address, FL, R0 to R6, and SP as it is after the last push (R144). -/
theorem State.pushFrame_eq (s : State) (ret : Byte) :
    s.pushFrame ret =
      [ret, s.fl.toByte, s.reg 0, s.reg 1, s.reg 2, s.reg 3, s.reg 4, s.reg 5, s.reg 6, s.reg SP - 10].foldl
        State.pushVal s := by
  have h : s.reg SP - 1 - 1 - 1 - 1 - 1 - 1 - 1 - 1 - 1 - 1 = s.reg SP - 10 := by bv_omega
  rw [← h]
  simp only [State.pushFrame, pushOrder, List.foldl_cons, List.foldl_nil, State.pushReg_eq, State.pushVal_reg]
  rfl

/-- Interrupt entry goes to the number's handler with the machine saved, or faults and saves nothing. -/
theorem enterInterrupt_cases {i : Instr} {s t : State} {r : RegIdx} (h : enterInterrupt i s r = .next t) :
    (256 ≤ s.pc.toNat + lengthOf (opcodeByte i) ∧
      raise i s (.returnAddress (s.pc.toNat + lengthOf (opcodeByte i))) = .next t) ∨
    (s.pc.toNat + lengthOf (opcodeByte i) < 256 ∧
      let w := s.pushFrame (BitVec.ofNat 8 (s.pc.toNat + lengthOf (opcodeByte i)))
      let va := Config.vectorBase + (w.reg r).toNat
      (va < 256 ∧ t = w.setPc (w.read (BitVec.ofNat 8 va))) ∨ (256 ≤ va ∧ raise i s (.vector va) = .next t)) := by
  rcases withReturnAddress_cases h with ⟨hlt, h⟩ | h
  · refine .inr ⟨hlt, ?_⟩
    dsimp only at h ⊢
    split at h
    · next hv =>
      cases h
      exact .inl ⟨hv, rfl⟩
    · next hv => exact .inr ⟨Nat.not_lt.1 hv, h⟩
  · exact .inl h

/-! ### Returning from an interrupt -/

/-- Popping into the registers of a list, one after another, changes only registers. -/
theorem State.popRegs_fields (rs : List RegIdx) (s : State) :
    let w := rs.foldl State.popReg s
    w.pc = s.pc ∧ w.fl = s.fl ∧ w.mem = s.mem ∧ w.status = s.status ∧ w.fault = s.fault ∧ w.out = s.out := by
  induction rs generalizing s with
  | nil => exact ⟨rfl, rfl, rfl, rfl, rfl, rfl⟩
  | cons r rs ih => exact ih (s.popReg r)

/-- Popping FL and the pc moves SP up by two. -/
theorem State.popFlagsAndPc_eq (s : State) :
    s.popFlagsAndPc =
      { s with
        regs := s.regs.set SP.val (s.reg SP + 2)
        fl := Flags.ofByte (s.read (s.reg SP))
        pc := s.read (s.reg SP + 1) } := by
  have h : s.reg SP + 1 + 1 = s.reg SP + 2 := by bv_omega
  simp [State.popFlagsAndPc, State.popVal, State.setReg, State.setFlags, State.setPc, State.reg, State.read] at h ⊢
  rw [h]

/-- Interrupt return changes registers, FL and the pc, and nothing else. -/
theorem returnFromInterrupt_fields {s t : State} (h : returnFromInterrupt s = .next t) :
    t.mem = s.mem ∧ t.status = s.status ∧ t.fault = s.fault ∧ t.out = s.out := by
  obtain ⟨-, -, h3, h4, h5, h6⟩ := State.popRegs_fields popOrder s
  unfold returnFromInterrupt at h
  rw [State.popFlagsAndPc_eq] at h
  generalize popOrder.foldl State.popReg s = w at *
  injection h with h
  subst h
  exact ⟨h3, h4, h5, h6⟩

end Sys2Proof.Machine
end

