-- ==== Sys2Proof/Laws/PerInstr.lean ====
section
/-! SUPPORT. One lemma per instruction about its syntax: its row of the opcode map, and how its bytes fit that row. -/

namespace Sys2Proof.Laws

/-- The instruction's opcode byte has a row, whose form makes the instruction from its operand bytes, with as many
operand kinds as bytes and as the opcode's count field says (30_encoding.md R63, R68, R70). -/
def Rows.Statement (i : Instr) : Prop :=
  ∃ row, findRow (opcodeByte i) = some row ∧ row.opcode = opcodeByte i ∧
    row.kinds.length = (operandBytes i).length ∧ lengthOf (opcodeByte i) = (operandBytes i).length + 1 ∧
    match row.form, operandBytes i with
    | .noOperand j, [] => j = i
    | .oneOperand mk, [a] => mk a = i
    | .twoOperands mk, [a, b] => mk a b = i
    | _, _ => False

theorem Rows.ldi (a b : Byte) : Rows.Statement (.ldi a b) := ⟨_, rfl, rfl, rfl, by simp [lengthOf, countField, opcodeByte, operandBytes], rfl⟩
theorem Rows.ld (a b : Byte) : Rows.Statement (.ld a b) := ⟨_, rfl, rfl, rfl, by simp [lengthOf, countField, opcodeByte, operandBytes], rfl⟩
theorem Rows.st (a b : Byte) : Rows.Statement (.st a b) := ⟨_, rfl, rfl, rfl, by simp [lengthOf, countField, opcodeByte, operandBytes], rfl⟩
theorem Rows.prn (a : Byte) : Rows.Statement (.prn a) := ⟨_, rfl, rfl, rfl, by simp [lengthOf, countField, opcodeByte, operandBytes], rfl⟩
theorem Rows.pra (a : Byte) : Rows.Statement (.pra a) := ⟨_, rfl, rfl, rfl, by simp [lengthOf, countField, opcodeByte, operandBytes], rfl⟩
theorem Rows.push (a : Byte) : Rows.Statement (.push a) := ⟨_, rfl, rfl, rfl, by simp [lengthOf, countField, opcodeByte, operandBytes], rfl⟩
theorem Rows.pop (a : Byte) : Rows.Statement (.pop a) := ⟨_, rfl, rfl, rfl, by simp [lengthOf, countField, opcodeByte, operandBytes], rfl⟩
theorem Rows.call (a : Byte) : Rows.Statement (.call a) := ⟨_, rfl, rfl, rfl, by simp [lengthOf, countField, opcodeByte, operandBytes], rfl⟩
theorem Rows.ret : Rows.Statement .ret := ⟨_, rfl, rfl, rfl, by simp [lengthOf, countField, opcodeByte, operandBytes], rfl⟩
theorem Rows.int (a : Byte) : Rows.Statement (.int a) := ⟨_, rfl, rfl, rfl, by simp [lengthOf, countField, opcodeByte, operandBytes], rfl⟩
theorem Rows.iret : Rows.Statement .iret := ⟨_, rfl, rfl, rfl, by simp [lengthOf, countField, opcodeByte, operandBytes], rfl⟩
theorem Rows.jmp (a : Byte) : Rows.Statement (.jmp a) := ⟨_, rfl, rfl, rfl, by simp [lengthOf, countField, opcodeByte, operandBytes], rfl⟩
theorem Rows.jeq (a : Byte) : Rows.Statement (.jeq a) := ⟨_, rfl, rfl, rfl, by simp [lengthOf, countField, opcodeByte, operandBytes], rfl⟩
theorem Rows.jne (a : Byte) : Rows.Statement (.jne a) := ⟨_, rfl, rfl, rfl, by simp [lengthOf, countField, opcodeByte, operandBytes], rfl⟩
theorem Rows.jgt (a : Byte) : Rows.Statement (.jgt a) := ⟨_, rfl, rfl, rfl, by simp [lengthOf, countField, opcodeByte, operandBytes], rfl⟩
theorem Rows.jlt (a : Byte) : Rows.Statement (.jlt a) := ⟨_, rfl, rfl, rfl, by simp [lengthOf, countField, opcodeByte, operandBytes], rfl⟩
theorem Rows.add (a b : Byte) : Rows.Statement (.add a b) := ⟨_, rfl, rfl, rfl, by simp [lengthOf, countField, opcodeByte, operandBytes], rfl⟩
theorem Rows.sub (a b : Byte) : Rows.Statement (.sub a b) := ⟨_, rfl, rfl, rfl, by simp [lengthOf, countField, opcodeByte, operandBytes], rfl⟩
theorem Rows.mul (a b : Byte) : Rows.Statement (.mul a b) := ⟨_, rfl, rfl, rfl, by simp [lengthOf, countField, opcodeByte, operandBytes], rfl⟩
theorem Rows.div (a b : Byte) : Rows.Statement (.div a b) := ⟨_, rfl, rfl, rfl, by simp [lengthOf, countField, opcodeByte, operandBytes], rfl⟩
theorem Rows.mod (a b : Byte) : Rows.Statement (.mod a b) := ⟨_, rfl, rfl, rfl, by simp [lengthOf, countField, opcodeByte, operandBytes], rfl⟩
theorem Rows.inc (a : Byte) : Rows.Statement (.inc a) := ⟨_, rfl, rfl, rfl, by simp [lengthOf, countField, opcodeByte, operandBytes], rfl⟩
theorem Rows.dec (a : Byte) : Rows.Statement (.dec a) := ⟨_, rfl, rfl, rfl, by simp [lengthOf, countField, opcodeByte, operandBytes], rfl⟩
theorem Rows.cmp (a b : Byte) : Rows.Statement (.cmp a b) := ⟨_, rfl, rfl, rfl, by simp [lengthOf, countField, opcodeByte, operandBytes], rfl⟩
theorem Rows.and (a b : Byte) : Rows.Statement (.and a b) := ⟨_, rfl, rfl, rfl, by simp [lengthOf, countField, opcodeByte, operandBytes], rfl⟩
theorem Rows.or (a b : Byte) : Rows.Statement (.or a b) := ⟨_, rfl, rfl, rfl, by simp [lengthOf, countField, opcodeByte, operandBytes], rfl⟩
theorem Rows.xor (a b : Byte) : Rows.Statement (.xor a b) := ⟨_, rfl, rfl, rfl, by simp [lengthOf, countField, opcodeByte, operandBytes], rfl⟩
theorem Rows.not (a : Byte) : Rows.Statement (.not a) := ⟨_, rfl, rfl, rfl, by simp [lengthOf, countField, opcodeByte, operandBytes], rfl⟩
theorem Rows.hlt : Rows.Statement .hlt := ⟨_, rfl, rfl, rfl, by simp [lengthOf, countField, opcodeByte, operandBytes], rfl⟩

/-- Every instruction fits its row. -/
theorem Rows.all (i : Instr) : Rows.Statement i := by
  cases i with
  | ldi a b => exact Rows.ldi a b
  | ld a b => exact Rows.ld a b
  | st a b => exact Rows.st a b
  | prn a => exact Rows.prn a
  | pra a => exact Rows.pra a
  | push a => exact Rows.push a
  | pop a => exact Rows.pop a
  | call a => exact Rows.call a
  | ret => exact Rows.ret
  | int a => exact Rows.int a
  | iret => exact Rows.iret
  | jmp a => exact Rows.jmp a
  | jeq a => exact Rows.jeq a
  | jne a => exact Rows.jne a
  | jgt a => exact Rows.jgt a
  | jlt a => exact Rows.jlt a
  | add a b => exact Rows.add a b
  | sub a b => exact Rows.sub a b
  | mul a b => exact Rows.mul a b
  | div a b => exact Rows.div a b
  | mod a b => exact Rows.mod a b
  | inc a => exact Rows.inc a
  | dec a => exact Rows.dec a
  | cmp a b => exact Rows.cmp a b
  | and a b => exact Rows.and a b
  | or a b => exact Rows.or a b
  | xor a b => exact Rows.xor a b
  | not a => exact Rows.not a
  | hlt => exact Rows.hlt

end Sys2Proof.Laws
end

