-- ==== Sys2Proof/Laws/Step.lean ====
section
/-! SUPPORT. Everything a step and a decoding can do, said once. -/

namespace Sys2Proof

/-- A row that is found is a row of the map, and its opcode is the byte looked up. -/
theorem findRow_some {op : Byte} {row : Row} (h : findRow op = some row) : row ∈ opcodeMap ∧ row.opcode = op :=
  ⟨List.mem_of_find?_eq_some h, by simpa using List.find?_some h⟩

/-- A byte is classified exactly when it has a row. -/
theorem classify_eq_none {op : Byte} : classify op = none ↔ findRow op = none := by simp [classify]

end Sys2Proof

namespace Sys2Proof.Machine

/-- A RUNNING machine fetches and then executes, or takes the fault of the fetch. -/
theorem step_running {s : State} (hs : s.status = .running) :
    step s = match fetch s with
      | .ok i => exec i s
      | .error f => .next (s.takeFault f) := by
  cases hf : fetch s <;> simp only [step, hs, hf]

/-- Everything a step that goes on can have done. -/
theorem step_cases {s t : State} (h : step s = .next t) :
    (s.status ≠ .running ∧ t = s) ∨
    (s.status = .running ∧ ∃ i, fetch s = .ok i ∧ exec i s = .next t) ∨
    (s.status = .running ∧ ∃ f, fetch s = .error f ∧ t = s.takeFault f) := by
  cases hs : s.status with
  | running =>
    rw [step_running hs] at h
    cases hf : fetch s with
    | ok i => rw [hf] at h; exact .inr (.inl ⟨rfl, i, rfl, h⟩)
    | error f => rw [hf] at h; cases h; exact .inr (.inr ⟨rfl, f, rfl, rfl⟩)
  | halted => rw [step, hs] at h; cases h; exact .inl ⟨by simp, rfl⟩
  | faulted => rw [step, hs] at h; cases h; exact .inl ⟨by simp, rfl⟩

end Sys2Proof.Machine
end

