-- ==== Sys2Proof/Tests/Slice0.lean ====
section
/-! SUPPORT. Tests with expected values from spec/95_test_vectors.md (named in each docstring) or worked from the rule
named, and a witness for the hypotheses of every statement that has some. -/

namespace Sys2Proof.Tests

open Sys2Proof Sys2Proof.Machine Sys2Proof.Claims

/-- A machine just reset, except that the bytes given stand from `pc` on and the pc is there. -/
def boot (pc : Byte) (bytes : List Byte) : State :=
  { State.reset with pc := pc, mem := Memory.writeBytes [] pc.toNat bytes }

/-- The machine a result goes on with. -/
def next? : Result → Option State
  | .next t => some t
  | .fault _ => none
  | .refused _ => none

/-- What one step gives, seen through `view`. -/
def see {α : Type} (s : State) (view : State → α) : Option α := (next? (step s)).map view

/-- A machine seen as its status, its pc and its fault record's kind, cause and detail. -/
structure FaultView where
  status : Status
  pc : Byte
  kind : FaultKind
  cause : FaultCause
  detail : Nat
  deriving DecidableEq, Repr

def faultView (t : State) : Option FaultView :=
  t.fault.bind fun f => if f.addr = t.pc then some ⟨t.status, t.pc, f.kind, f.cause, f.detail⟩ else none

/-! ### Well-formedness (R66, R67): each check refuses an ill-formed term -/

theorem test_wf_first_operand_above_seven_refused : (Instr.ldi 8 0).wf = false := by decide
theorem test_wf_second_operand_above_seven_refused : (Instr.st 0 9).wf = false := by decide
theorem test_wf_single_operand_above_seven_refused : (Instr.push 0xFF).wf = false := by decide
theorem test_wf_whole_byte_is_compared : (Instr.jmp 0x81).wf = false := by decide
theorem test_wf_immediate_is_never_checked : (Instr.ldi 7 0xFF).wf = true := by decide

/-! ### Decoding: words written out from R63, R68 and R70, every constructor
The bits of an opcode are count(2) alu(1) sf(1) id(4). -/

theorem test_decode_data_movement :
    decode [0b10000010, 0x00, 0x08] = .ok (.ldi 0 8, []) ∧ decode [0b10000011, 0x01, 0x02] = .ok (.ld 1 2, []) ∧
    decode [0b10000100, 0x03, 0x04] = .ok (.st 3 4, []) := by decide
theorem test_decode_output : decode [0b01000111, 0x05] = .ok (.prn 5, []) ∧ decode [0b01001000, 0x06] = .ok (.pra 6, []) := by
  decide
theorem test_decode_stack_and_subroutine :
    decode [0b01000101, 0x07] = .ok (.push 7, []) ∧ decode [0b01000110, 0x01] = .ok (.pop 1, []) ∧
    decode [0b01000000, 0x02] = .ok (.call 2, []) ∧ decode [0b00000010] = .ok (.ret, []) := by decide
theorem test_decode_interrupt_and_halt :
    decode [0b01000010, 0x03] = .ok (.int 3, []) ∧ decode [0b00010011] = .ok (.iret, []) ∧
    decode [0b00000001] = .ok (.hlt, []) := by decide
theorem test_decode_jumps :
    decode [0b01000100, 0x01] = .ok (.jmp 1, []) ∧ decode [0b01001001, 0x02] = .ok (.jeq 2, []) ∧
    decode [0b01001010, 0x03] = .ok (.jne 3, []) ∧ decode [0b01001011, 0x04] = .ok (.jgt 4, []) ∧
    decode [0b01001100, 0x05] = .ok (.jlt 5, []) := by decide
theorem test_decode_alu_two_operands :
    decode [0b10100000, 0x01, 0x02] = .ok (.add 1 2, []) ∧ decode [0b10100001, 0x01, 0x02] = .ok (.sub 1 2, []) ∧
    decode [0b10100010, 0x01, 0x02] = .ok (.mul 1 2, []) ∧ decode [0b10100011, 0x01, 0x02] = .ok (.div 1 2, []) ∧
    decode [0b10100100, 0x01, 0x02] = .ok (.mod 1 2, []) ∧ decode [0b10110111, 0x01, 0x02] = .ok (.cmp 1 2, []) := by decide
theorem test_decode_alu_bitwise_and_one_operand :
    decode [0b10101000, 0x01, 0x02] = .ok (.and 1 2, []) ∧ decode [0b10101010, 0x01, 0x02] = .ok (.or 1 2, []) ∧
    decode [0b10101011, 0x01, 0x02] = .ok (.xor 1 2, []) ∧ decode [0b01100101, 0x03] = .ok (.inc 3, []) ∧
    decode [0b01100110, 0x04] = .ok (.dec 4, []) ∧ decode [0b01101001, 0x05] = .ok (.not 5, []) := by decide
theorem test_decode_leaves_the_rest : decode [0x47, 0x03, 0x01, 0xFF] = .ok (.prn 3, [0x01, 0xFF]) := by decide
theorem test_decode_refuses_illegal_opcodes :
    ([0x00, 0xA7, 0x50, 0xC0, 0xFF, 0x11, 0xAC] : List Byte).all (fun op => decode [op, 0, 0] == .error (.noInstruction op)) := by
  decide
theorem test_decode_refuses_missing_operand : decode [0x82, 0x00] = .error (.missingOperand 0x82 [0x00]) := by decide
theorem test_decode_table_word_numbers_bytes_from_the_first :
    decodeTableWord 24 0x080082 = some (.ldi 0 8) ∧ decodeTableWord 8 0x82 = some (.ldi 0 0) ∧
    decodeTableWord 8 0x01 = some .hlt ∧ decodeTableWord 8 0xC0 = none := by decide
theorem test_with_fetch_word_runs_next :
    see (State.reset.withFetchWord 24 0x080082) (fun t => (t.reg 0, t.pc)) = some (8, 3) := by decide

/-! ### The cycle (95_test_vectors.md 2.1) -/

theorem test_step_empty_memory_decode_fault :
    see State.reset faultView = some (some ⟨.faulted, 0, .decode, .noCause, 0⟩) := by decide
theorem test_step_operand_past_memory :
    see (boot 0xFE [0x82, 0x00]) faultView = some (some ⟨.faulted, 0xFE, .addressing, .fetch, 256⟩) ∧
    see (boot 0xFE [0x82, 0x00]) (fun t => t.fault.map FaultRecord.operands) = some (some [0x00]) ∧
    see (boot 0xFF [0x47]) (fun t => t.fault.map FaultRecord.operands) = some (some []) := by decide
theorem test_step_advance_past_memory_commits_nothing :
    see (boot 0xFD [0x82, 0x00, 0x05]) faultView = some (some ⟨.faulted, 0xFD, .addressing, .pcAdvance, 256⟩) ∧
    see (boot 0xFD [0x82, 0x00, 0x05]) (fun t => t.reg 0) = some 0 ∧
    see (boot 0xFE [0x47, 0x00]) (fun t => t.out) = some [] := by decide
theorem test_step_register_operands_checked_in_order :
    see (boot 0 [0xA0, 0x0A, 0x09]) faultView = some (some ⟨.faulted, 0, .addressing, .regIndex, 10⟩) ∧
    see (boot 0 [0xA0, 0x00, 0x09]) faultView = some (some ⟨.faulted, 0, .addressing, .regIndex, 9⟩) ∧
    see (boot 0 [0xA3, 0x09, 0x01]) faultView = some (some ⟨.faulted, 0, .addressing, .regIndex, 9⟩) := by decide

/-! ### Instructions (95_test_vectors.md 2.2 to 2.9), at most two tests each -/

/-- 2.2 -/
theorem test_ldi_into_sp : see (boot 0 [0x82, 0x07, 0x10]) (fun t => (t.reg 7, t.pc)) = some (0x10, 3) := by decide
/-- 2.2 -/
theorem test_ld_source_is_destination :
    see (((boot 0 [0x83, 0x01, 0x01]).setReg 1 0x10).write 0x10 0x2A) (fun t => (t.reg 1, t.pc)) = some (0x2A, 3) := by decide
/-- 2.2 -/
theorem test_st_first_operand_is_the_address :
    see (((boot 0 [0x84, 0x00, 0x01]).setReg 0 0xFA).setReg 1 0x20) (fun t => (t.read 0xFA, t.read 0x20)) = some (0x20, 0) := by
  decide
/-- 2.3 -/
theorem test_prn_emits : see ((boot 0 [0x47, 0x00]).setReg 0 0xFF) (fun t => (t.out, t.pc)) = some ([.prn 255], 2) := by decide
/-- 2.3 -/
theorem test_prn_shows_decimal_digits :
    (OutEvent.prn 255).render = ['2', '5', '5'] ∧ (OutEvent.prn 0).render = ['0'] ∧ renderTrace [.prn 1, .prn 17] = ['1', '1', '7'] := by
  decide
/-- 2.3 -/
theorem test_pra_emits : see ((boot 0 [0x48, 0x02]).setReg 2 0x41) (fun t => (t.out, t.pc)) = some ([.pra 0x41], 2) := by decide
/-- 2.4 -/
theorem test_push_of_sp_stores_decremented : see (boot 0 [0x45, 0x07]) (fun t => (t.reg 7, t.read 0xF3)) = some (0xF3, 0xF3) := by
  decide
/-- 2.4 -/
theorem test_push_wraps :
    see (((boot 0x10 [0x45, 0x01]).setReg 7 0).setReg 1 9) (fun t => (t.reg 7, t.read 0xFF)) = some (0xFF, 9) := by decide
/-- 2.4 -/
theorem test_pop_of_sp_leaves_byte_plus_one :
    see (((boot 0 [0x46, 0x07]).setReg 7 0xF3).write 0xF3 0x40) (fun t => t.reg 7) = some 0x41 := by decide
/-- 2.4 -/
theorem test_pop_wraps :
    see (((boot 0 [0x46, 0x02]).setReg 7 0xFF).write 0xFF 9) (fun t => (t.reg 2, t.reg 7)) = some (9, 0) := by decide
/-- 2.5 -/
theorem test_call_pushes_return_address :
    see ((boot 0x06 [0x40, 0x01]).setReg 1 0x0B) (fun t => (t.read 0xF3, t.reg 7, t.pc)) = some (0x08, 0xF3, 0x0B) := by decide
/-- 2.5 -/
theorem test_call_of_sp_reads_after_push :
    see (boot 0x10 [0x40, 0x07]) (fun t => (t.read 0xF3, t.reg 7, t.pc)) = some (0x12, 0xF3, 0xF3) := by decide
/-- 2.5 -/
theorem test_call_at_end_of_memory_faults :
    see (boot 0xFE [0x40, 0x01]) faultView = some (some ⟨.faulted, 0xFE, .addressing, .returnAddress, 256⟩) := by decide
/-- 2.5 -/
theorem test_ret_at_last_address :
    see (((boot 0xFF [0x02]).setReg 7 0xF3).write 0xF3 0x10) (fun t => (t.pc, t.reg 7)) = some (0x10, 0xF4) := by decide

/-- The start of 2.6's first row. -/
def beforeInt : State :=
  { boot 0x15 [0x42, 0x02] with
    regs := #v[0xFA, 0x20, 0x02, 0x07, 0x07, 0, 0, 0xF4], fl := ⟨true, false, false⟩,
    mem := Memory.write (boot 0x15 [0x42, 0x02]).mem 0xFA 0x20 }

/-- 2.6's first row: the frame from 0xEA to 0xF3, SP, pc and FL. -/
theorem test_int_pushes_the_frame :
    see beforeInt (fun t => ((List.range' 0xEA 10).map t.mem.read, t.reg 7, t.pc, t.fl)) =
      some ([0xEA, 0x00, 0x00, 0x07, 0x07, 0x02, 0x20, 0xFA, 0x01, 0x17], 0xEA, 0x20, ⟨true, false, false⟩) := by decide
/-- 2.6 -/
theorem test_int_number_without_vector :
    see ((boot 0 [0x42, 0x00]).setReg 0 8) faultView = some (some ⟨.faulted, 0, .addressing, .vector, 256⟩) ∧
    see ((boot 0 [0x42, 0x00]).setReg 0 0xFF) (fun t => (t.reg 7, t.fault.map FaultRecord.detail)) = some (0xF4, some 503) := by
  decide
/-- 2.6, the frame of the first row with 0xFF for its FL byte: all three flags, and registers from the frame -/
theorem test_iret_restores_the_frame :
    see ({ boot 0x2B [0x13] with
        regs := #v[1, 1, 1, 1, 1, 1, 1, 0xEA],
        mem := Memory.writeBytes (boot 0x2B [0x13]).mem 0xEA [0xEA, 0x00, 0x00, 0x07, 0x07, 0x02, 0x20, 0xFA, 0xFF, 0x17] } : State)
      (fun t => (t.regs.toList, t.fl, t.pc)) =
      some ([0xFA, 0x20, 0x02, 0x07, 0x07, 0, 0, 0xF4], ⟨true, true, true⟩, 0x17) := by decide
/-- 2.7 -/
theorem test_jmp_to_itself : see ((boot 0x05 [0x44, 0x00]).setReg 0 0x05) (fun t => (t.pc, t.status)) = some (0x05, .running) := by
  decide
/-- 2.7 -/
theorem test_jeq_taken_at_last_pair :
    see ((boot 0xFE [0x49, 0x03]).setFlags ⟨true, false, false⟩) (fun t => (t.pc, t.status)) = some (0x00, .running) := by decide
/-- 2.7 -/
theorem test_jeq_not_taken_past_memory :
    see (boot 0xFE [0x49, 0x03]) faultView = some (some ⟨.faulted, 0xFE, .addressing, .pcAdvance, 256⟩) := by decide
/-- 2.7 -/
theorem test_jne_looks_at_e_only :
    see (((boot 0x14 [0x4A, 0x03]).setReg 3 0x0C).setFlags ⟨false, true, false⟩) State.pc = some 0x0C ∧
    see (((boot 0x14 [0x4A, 0x03]).setReg 3 0x0C).setFlags ⟨true, false, false⟩) State.pc = some 0x16 := by decide
/-- 2.7 -/
theorem test_jgt_taken_on_g_only :
    see (((boot 0x20 [0x4B, 0x01]).setReg 1 0x40).setFlags ⟨false, true, false⟩) State.pc = some 0x40 ∧
    see (((boot 0x20 [0x4B, 0x01]).setReg 1 0x40).setFlags ⟨false, false, true⟩) State.pc = some 0x22 := by decide
/-- 2.7 -/
theorem test_jlt_taken_on_l_only :
    see (((boot 0x20 [0x4C, 0x01]).setReg 1 0x40).setFlags ⟨false, false, true⟩) State.pc = some 0x40 ∧
    see (((boot 0x20 [0x4C, 0x01]).setReg 1 0x40).setFlags ⟨true, false, false⟩) State.pc = some 0x22 := by decide

/-- x[0] after `op R0, R1` at 0 with the two values given. -/
def binary (op x y : Byte) : Option Byte := see (((boot 0 [op, 0x00, 0x01]).setReg 0 x).setReg 1 y) fun t => t.reg 0
/-- x[0] after `op R0` at 0. -/
def unary (op x : Byte) : Option Byte := see ((boot 0 [op, 0x00]).setReg 0 x) fun t => t.reg 0
/-- FL after CMP R0, R1 with all three flags set before. -/
def compared (x y : Byte) : Option Flags :=
  see ((((boot 0 [0xB7, 0x00, 0x01]).setReg 0 x).setReg 1 y).setFlags ⟨true, true, true⟩) State.fl

/-- 2.8 -/
theorem test_add : binary 0xA0 0xFF 0x01 = some 0x00 ∧ binary 0xA0 0x08 0x09 = some 0x11 := by decide
/-- 2.8: FL is kept -/
theorem test_add_keeps_flags :
    see ((((boot 0 [0xA0, 0x00, 0x01]).setReg 0 1).setReg 1 1).setFlags ⟨true, false, false⟩) (fun t => (t.reg 0, t.fl)) =
      some (2, ⟨true, false, false⟩) := by decide
/-- 2.8 -/
theorem test_sub : binary 0xA1 0x03 0x05 = some 0xFE ∧ binary 0xA1 0x00 0x01 = some 0xFF := by decide
/-- 2.8 -/
theorem test_mul : binary 0xA2 0x14 0x0D = some 0x04 ∧ binary 0xA2 0xFF 0xFF = some 0x01 := by decide
/-- 2.8 -/
theorem test_div : binary 0xA3 0xC8 0x07 = some 0x1C ∧ binary 0xA3 0x07 0xC8 = some 0x00 := by decide
/-- 2.8 -/
theorem test_div_by_zero :
    see ((boot 0 [0xA3, 0x00, 0x01]).setReg 0 5) (fun t => (faultView t, t.reg 0)) =
      some (some ⟨.faulted, 0, .numeric, .noCause, 0⟩, 5) := by decide
/-- 2.8 -/
theorem test_mod : binary 0xA4 0xC8 0x07 = some 0x04 ∧ binary 0xA4 0xFF 0x10 = some 0x0F := by decide
/-- 2.8 -/
theorem test_mod_by_zero : see ((boot 0 [0xA4, 0x00, 0x01]).setReg 0 5) (fun t => t.fault.map FaultRecord.kind) = some (some .numeric) := by
  decide
/-- 2.8 -/
theorem test_inc : unary 0x65 0x7F = some 0x80 ∧ unary 0x65 0xFF = some 0x00 := by decide
/-- 2.8 -/
theorem test_dec : unary 0x66 0x01 = some 0x00 ∧ unary 0x66 0x00 = some 0xFF := by decide
/-- 2.8: unsigned, and every flag overwritten -/
theorem test_cmp :
    compared 0x80 0x7F = some ⟨false, true, false⟩ ∧ compared 0x01 0x02 = some ⟨false, false, true⟩ ∧
    compared 0x05 0x05 = some ⟨true, false, false⟩ := by decide
/-- 2.8 -/
theorem test_and : binary 0xA8 0xF0 0x3C = some 0x30 := by decide
/-- 2.8 -/
theorem test_or : binary 0xAA 0xF0 0x3C = some 0xFC := by decide
/-- 2.8 -/
theorem test_xor : binary 0xAB 0xF0 0x3C = some 0xCC := by decide
/-- 2.8 -/
theorem test_not : unary 0x69 0x0F = some 0xF0 ∧ unary 0x69 0x00 = some 0xFF := by decide
/-- 2.9 -/
theorem test_hlt_at_last_address : see (boot 0xFF [0x01]) (fun t => (t.status, t.pc, t.fault)) = some (.halted, 0xFF, none) := by
  decide

/-! ### The host's operations, and assembly (R74) -/

theorem test_load_refuses_257_bytes :
    State.reset.load (List.replicate 257 0x01) = none ∧ (State.reset.load (List.replicate 256 0x00)).isSome :=
  ⟨if_neg (by rw [List.length_replicate]; decide), by rw [State.load, if_pos (by rw [List.length_replicate])]; rfl⟩
theorem test_inspect_after_reset :
    (State.reset.inspect.pc, State.reset.inspect.fl, State.reset.inspect.status, State.reset.inspect.fault) =
      ((0, 0, 0, ⟨0, 0, 0, 0, [], 0⟩) : Byte × Byte × Nat × FaultFields) := by decide
/-- The bytes of P1's first and third lines, and R74's number formats. -/
theorem test_assemble :
    assemble ['L', 'D', 'I', ' ', 'R', '0', ',', ' ', '8'] = some [0x82, 0x00, 0x08] ∧
    assemble ['A', 'D', 'D', ' ', 'R', '0', ',', ' ', 'R', '1'] = some [0xA0, 0x00, 0x01] ∧
    assemble ['L', 'D', 'I', ' ', 'S', 'P', ',', '0', 'x', 'F', '4'] = some [0x82, 0x07, 0xF4] ∧
    assemble ['L', 'D', 'I', ' ', 'R', '1', ',', '0', 'b', '1', '0', '1'] = some [0x82, 0x01, 0x05] := by decide
theorem test_assemble_refuses :
    assemble ['L', 'D', 'I', ' ', 'R', '0', ',', '2', '5', '6'] = none ∧ assemble ['P', 'R', 'N', ' ', 'R', '8'] = none ∧
    assemble ['H', 'L', 'T', ' ', 'R', '0'] = none := by decide

/-! ### Witnesses: for each statement with hypotheses, a state and operands that meet all of them -/

/-- The reset state meets the invariant, so a step can start from it. -/
theorem reset_inv : Inv State.reset :=
  ⟨by decide, by decide, (fun _ h => by cases h), by decide⟩

/-- A machine HALTED at a HLT meets the invariant. -/
theorem halted_inv : Inv { boot 0xFF [0x01] with status := .halted } :=
  ⟨by decide, by decide, (fun _ h => by cases h), by decide⟩

/-- A machine FAULTED by a zero divisor meets the invariant. -/
theorem faulted_inv :
    Inv { boot 0 [0xA3, 0x00, 0x01] with status := .faulted, fault := some ⟨.numeric, .noCause, 0, 0xA3, [0x00, 0x01], 0⟩ } :=
  ⟨by decide, by decide, (fun _ h => by cases h; exact ⟨by decide, by decide, by decide, by decide, by decide, .inl rfl⟩), by decide⟩

theorem witness_StepKeepsInvariant : Inv State.reset ∧ ∃ t, step State.reset = .next t := ⟨reset_inv, _, rfl⟩

theorem witness_StepRunsTheDecodedInstruction :
    (boot 0xFD [0x82, 0x08, 0x05]).status = .running ∧
    ∀ k (h : k < (encode (.ldi 8 5)).length), (boot 0xFD [0x82, 0x08, 0x05]).pc.toNat + k ≤ 255 ∧
      (boot 0xFD [0x82, 0x08, 0x05]).mem.read ((boot 0xFD [0x82, 0x08, 0x05]).pc.toNat + k) = (encode (.ldi 8 5))[k] := by decide

theorem witness_TerminalStatesDoNotStep :
    ({ State.reset with status := .halted } : State).status = .halted ∧
    ({ State.reset with status := .faulted } : State).status = .faulted := by decide

theorem witness_IllegalOpcodeTakesDecodeFault :
    (boot 0xFF [0xC0]).status = .running ∧ classify ((boot 0xFF [0xC0]).read (boot 0xFF [0xC0]).pc) = none := by decide

theorem witness_OperandPastMemoryTakesFetchFault :
    (∃ d, (boot 0xFE [0x82, 0x00]).status = .running ∧ classify ((boot 0xFE [0x82, 0x00]).read 0xFE) = some d ∧
      255 < (boot 0xFE [0x82, 0x00]).pc.toNat + d.operandCount) ∧
    ∃ d, (boot 0xFF [0x47]).status = .running ∧ classify ((boot 0xFF [0x47]).read 0xFF) = some d ∧
      255 < (boot 0xFF [0x47]).pc.toNat + d.operandCount :=
  ⟨⟨_, rfl, rfl, by decide⟩, _, rfl, rfl, by decide⟩

theorem witness_BadRegisterOperandFaults :
    (Instr.add 0x0A 0x09).regOperands.find? (fun x => 8 ≤ x.toNat) = some 0x0A ∧
    (Instr.add 7 8).regOperands.find? (fun x => 8 ≤ x.toNat) = some 8 ∧
    (Instr.jmp 0xFF).regOperands.find? (fun x => 8 ≤ x.toNat) = some 0xFF := by decide

theorem witness_GenericAdvanceMovesOnOrFaults :
    (GenericallyAdvances (.jeq 3) (boot 0xFD [0x49, 0x03]) ∧
      (boot 0xFD [0x49, 0x03]).pc.toNat + countField (opcodeByte (.jeq 3)) + 1 ≤ 255) ∧
    GenericallyAdvances (.ldi 0 5) (boot 0xFD [0x82, 0x00, 0x05]) ∧
    255 < (boot 0xFD [0x82, 0x00, 0x05]).pc.toNat + countField (opcodeByte (.ldi 0 5)) + 1 :=
  ⟨⟨⟨rfl, rfl⟩, by decide⟩, ⟨rfl, trivial⟩, by decide⟩

/-- One witness a clause: a bad operand a beside a bad b, a zero divisor, an advancement to 256, a return address of 256,
and interrupt number 8. -/
theorem witness_ReportedFaultIsFirstFailedCheck :
    (∃ t f, exec (.add 0x0A 9) (boot 0 [0xA0, 0x0A, 9]) = .next t ∧ t.fault = some f ∧ f.cause = .regIndex ∧ f.detail = 10) ∧
    (∃ t f, exec (.div 0 1) (boot 0 [0xA3, 0, 1]) = .next t ∧ t.fault = some f ∧ f.cause = .noCause) ∧
    (∃ t f, exec (.prn 0) (boot 0xFE [0x47, 0]) = .next t ∧ t.fault = some f ∧ f.cause = .pcAdvance) ∧
    (∃ t f, exec (.int 0) ((boot 0xFE [0x42, 0]).setReg 0 8) = .next t ∧ t.fault = some f ∧ f.cause = .returnAddress) ∧
    (∃ t f, exec (.int 0) ((boot 0xFD [0x42, 0]).setReg 0 8) = .next t ∧ t.fault = some f ∧ f.cause = .vector) ∧
    ((boot 0 [0xA0, 0x0A, 9]).fault = none ∧ (boot 0xFE [0x47, 0]).fault = none ∧ ((boot 0xFD [0x42, 0]).setReg 0 8).fault = none) :=
  ⟨⟨_, _, rfl, rfl, rfl, rfl⟩, ⟨_, _, rfl, rfl, rfl⟩, ⟨_, _, rfl, rfl, rfl⟩, ⟨_, _, rfl, rfl, rfl⟩, ⟨_, _, rfl, rfl, rfl⟩,
    rfl, rfl, rfl⟩

theorem witness_FaultingCommitsNothing :
    (∃ t, exec (.push 0) (boot 0xFE [0x45, 0]) = .next t ∧ (boot 0xFE [0x45, 0]).status ≠ .faulted ∧ t.status = .faulted) ∧
    ∃ t, step (boot 0xFF [0x47]) = .next t ∧ (boot 0xFF [0x47]).status ≠ .faulted ∧ t.status = .faulted :=
  ⟨⟨_, rfl, by decide, rfl⟩, _, rfl, by decide, rfl⟩

theorem witness_StatusChangesOnlyByHltOrFault :
    (∃ t, exec .hlt State.reset = .next t) ∧ (∃ t, exec (.inc 0) State.reset = .next t) ∧ ∃ t, exec (.inc 8) State.reset = .next t :=
  ⟨⟨_, rfl⟩, ⟨_, rfl⟩, _, rfl⟩

theorem witness_RegistersOutsideDestinationsAreKept :
    (∃ t, exec (.pop 2) State.reset = .next t ∧ (3 : RegIdx) ∉ writtenRegs (.pop 2)) ∧
    ∃ t, exec (.st 0 1) State.reset = .next t ∧ (7 : RegIdx) ∉ writtenRegs (.st 0 1) := ⟨⟨_, rfl, by decide⟩, _, rfl, by decide⟩

theorem witness_OnlyCmpAndIretWriteFlags : ∃ t, exec (.dec 0) State.reset = .next t ∧ writesFlags (.dec 0) = false := ⟨_, rfl, rfl⟩

theorem witness_MemoryOutsideStoredBytesIsKept :
    (∃ t, exec (.int 0) State.reset = .next t ∧ (0xE9 : Byte) ∉ storedAddresses (.int 0) State.reset) ∧
    (∃ t, exec (.int 0) State.reset = .next t ∧ (0xF4 : Byte) ∉ storedAddresses (.int 0) State.reset) ∧
    (∃ t, exec (.st 7 7) State.reset = .next t ∧ (0xF3 : Byte) ∉ storedAddresses (.st 7 7) State.reset) ∧
    ∃ t, exec (.pop 0) State.reset = .next t ∧ (0xF4 : Byte) ∉ storedAddresses (.pop 0) State.reset :=
  ⟨⟨_, rfl, by decide⟩, ⟨_, rfl, by decide⟩, ⟨_, rfl, by decide⟩, _, rfl, by decide⟩

theorem witness_OutputTraceOnlyGrows : ∃ t, exec (.pra 1) State.reset = .next t ∧ State.reset.status = .running := ⟨_, rfl, rfl⟩

theorem witness_EarlierOutputIsNeverObserved : ∃ t, step (boot 0 [0x47, 0]) = .next t := ⟨_, rfl⟩

theorem witness_OpcodeFieldsFollowTheLayout :
    ∃ r ∈ opcodeMap, ∃ q ∈ opcodeMap, r.mnemonic ≠ q.mnemonic ∧ r.opcode.extractLsb' 4 4 = q.opcode.extractLsb' 4 4 :=
  ⟨⟨0x82#8, .LDI, .twoOperands .ldi, [.reg, .imm8], .advances⟩, .head _,
    ⟨0x83#8, .LD, .twoOperands .ld, [.reg, .reg], .advances⟩, .tail _ (.head _), by decide, by decide⟩

theorem witness_UnassignedOpcodesAreRefused : countField 0xFF = 3 ∧ classify 0xA7 = none := by decide

theorem witness_MemoryWriteChangesOneByte :
    Memory.wf (boot 0xFF [0x01]).mem ∧ (0xFE : Byte) ≠ 0xFF ∧ Memory.wf State.reset.mem := by decide

/-- 95_test_vectors.md 2.2's last row: ST writes the HLT the next step fetches. -/
theorem witness_NextFetchSeesStoredByte :
    let s : State := { boot 0x10 [0x84, 0x00, 0x01] with regs := #v[0x13, 0x01, 0, 0, 0, 0, 0, 0xF4] }
    Memory.wf s.mem ∧ s.status = .running ∧ Names 0 0 ∧ Names 1 1 ∧ Fits 3 s ∧ s.reg 0 = s.pc + 3 ∧
    s.reg 1 = opcodeByte .hlt ∧ operandBytes .hlt = [] := by decide

/-- The last pc from which three bytes and a successor fit: LDI, LD, ST, and the two-operand ALU operations. -/
theorem witness_three_byte_instruction :
    Memory.wf (boot 0xFC [0x84, 0x07, 0x00]).mem ∧ Names 7 7 ∧ Names 0 0 ∧ Fits 3 (boot 0xFC [0x84, 0x07, 0x00]) := by decide

/-- The last pc from which two bytes and a successor fit: PRN, PRA, PUSH, POP, CALL, INT, jumps not taken, INC, DEC, NOT. -/
theorem witness_two_byte_instruction :
    Memory.wf (boot 0xFD [0x45, 0x07]).mem ∧ Names 7 7 ∧ Names 0 0 ∧ Fits 2 (boot 0xFD [0x45, 0x07]) := by decide

theorem witness_PrnRendersUnsignedDecimal : (OutEvent.prn 0).render.head? = some '0' := by decide

theorem witness_PushThenPopMovesValue :
    Memory.wf (boot 0xFB [0x45, 0, 0x46, 6]).mem ∧ Names 0 0 ∧ Names 6 6 ∧ (0 : RegIdx) ≠ 7 ∧ (6 : RegIdx) ≠ 7 ∧
    Fits 4 (boot 0xFB [0x45, 0, 0x46, 6]) := by decide

theorem witness_RetReturnsAfterCall :
    Memory.wf (boot 0xFD [0x40, 7]).mem ∧ Names 7 7 ∧ Fits 2 (boot 0xFD [0x40, 7]) ∧
    ∃ t h : State, exec (.call 7) (boot 0xFD [0x40, 7]) = .next t ∧ h.reg 7 = t.reg 7 ∧ h.read (t.reg 7) = t.read (t.reg 7) :=
  ⟨by decide, by decide, by decide, _, _, rfl, rfl, rfl⟩

/-- CALL's two clauses, and INT's last. -/
theorem witness_CallPushesReturnAddressAndJumps :
    Memory.wf (boot 0xFE [0x40, 7]).mem ∧ Names 0 0 ∧ Names 7 7 ∧ (boot 0xFE [0x40, 7]).pc = 0xFE#8 ∧
    Memory.wf (boot 0xFD [0x40, 7]).mem ∧ Fits 2 (boot 0xFD [0x40, 7]) := by decide

/-- The highest number with a vector slot, and R7 naming number 0 because SP is 10. -/
theorem witness_IntPushesFrameAndVectors :
    (Memory.wf ((boot 0xFD [0x42, 0]).setReg 0 7).mem ∧ Names 0 0 ∧ Fits 2 ((boot 0xFD [0x42, 0]).setReg 0 7) ∧
      (interruptNumber ((boot 0xFD [0x42, 0]).setReg 0 7) 0).toNat < 8) ∧
    Memory.wf ((boot 0xFD [0x42, 7]).setReg 7 10).mem ∧ Names 7 7 ∧ Fits 2 ((boot 0xFD [0x42, 7]).setReg 7 10) ∧
      (interruptNumber ((boot 0xFD [0x42, 7]).setReg 7 10) 7).toNat < 8 := by decide

/-- INT's fault clauses: the lowest number with no slot, and R7 naming no slot. -/
theorem witness_IntPushesFrameAndVectors_faults :
    (Memory.wf (boot 0xFE [0x42, 0]).mem ∧ (boot 0xFE [0x42, 0]).pc = 0xFE#8) ∧
    (Names 0 0 ∧ Fits 2 ((boot 0xFD [0x42, 0]).setReg 0 8) ∧ 8 ≤ (interruptNumber ((boot 0xFD [0x42, 0]).setReg 0 8) 0).toNat) ∧
    Names 7 7 ∧ Fits 2 ((boot 0xFD [0x42, 7]).setReg 7 9) ∧ 8 ≤ (interruptNumber ((boot 0xFD [0x42, 7]).setReg 7 9) 7).toNat := by
  decide

theorem witness_IretUndoesInt :
    Memory.wf ((boot 0xFD [0x42, 0]).setReg 0 7).mem ∧ Names 0 0 ∧ Fits 2 ((boot 0xFD [0x42, 0]).setReg 0 7) ∧
    (interruptNumber ((boot 0xFD [0x42, 0]).setReg 0 7) 0).toNat < 8 ∧
    ∃ t h : State, exec (.int 0) ((boot 0xFD [0x42, 0]).setReg 0 7) = .next t ∧ h.reg 7 = t.reg 7 ∧
      ∀ addr ∈ frameAddresses (((boot 0xFD [0x42, 0]).setReg 0 7).reg 7), h.read addr = t.read addr :=
  ⟨by decide, by decide, by decide, by decide, _, _, rfl, rfl, fun _ _ => rfl⟩

/-- Every clause of the conditional jumps: taken at 0xFE, not taken at 0xFD. -/
theorem witness_ConditionalJumpsFollowTheirFlag :
    Names 7 7 ∧ ((boot 0xFE [0x49, 7]).setFlags ⟨true, true, true⟩).fl = ⟨true, true, true⟩ ∧
    (boot 0xFD [0x49, 7]).fl = ⟨false, false, false⟩ ∧ Fits 2 (boot 0xFD [0x49, 7]) ∧
    ((boot 0xFD [0x4A, 7]).setFlags ⟨true, true, true⟩).fl.e = true ∧ Fits 2 ((boot 0xFD [0x4A, 7]).setFlags ⟨true, true, true⟩) := by
  decide

theorem witness_DivAndModDivideOrFault :
    (Names 7 7 ∧ Names 0 0 ∧ Fits 3 (boot 0xFC [0xA3, 0, 7]) ∧ (boot 0xFC [0xA3, 0, 7]).reg 7 ≠ 0#8) ∧
    (Names 1 1 ∧ Fits 3 ((boot 0xFC [0xA3, 0, 1]).setReg 1 1) ∧ ((boot 0xFC [0xA3, 0, 1]).setReg 1 1).reg 1 ≠ 0#8) ∧
    (boot 0xFD [0xA3, 0, 1]).reg 1 = 0#8 := by decide

theorem witness_LoadPlacesTheImage :
    (List.replicate 256 (0x01 : Byte)).length ≤ 256 ∧ 256 < (List.replicate 257 (0x01 : Byte)).length := by
  rw [List.length_replicate, List.length_replicate]; decide

/-- A load that is legal, and operations after a step that leave the ban in place. -/
theorem witness_LoadIsLegalOnlyBeforeFirstStep :
    (∃ h' reply, Session.perform Config.gprReference (Session.fresh Config.gprReference) (.load [0x01]) = some (h', reply)) ∧
    (∃ h' reply, Session.perform Config.gprReference ⟨State.reset, true⟩ .inspect = some (h', reply)) ∧
    (∃ h' reply, Session.perform Config.gprReference ⟨State.reset, true⟩ (.run 0) = some (h', reply)) ∧
    (HostCommand.inspect ≠ .reset ∧ HostCommand.run 0 ≠ .reset) :=
  ⟨⟨_, _, rfl⟩, ⟨_, _, rfl⟩, ⟨_, _, rfl⟩, by decide⟩

/-- R241: after a step and an inspection, and after a run of one step, the load is refused; after a run of none it is not. -/
theorem test_load_after_a_step_is_refused :
    let perform := Session.perform Config.gprReference
    (((perform (Session.fresh Config.gprReference) .step).bind fun r => perform r.1 .inspect).bind fun r => perform r.1 (.load [])) = none ∧
    ((perform (Session.fresh Config.gprReference) (.run 1)).bind fun r => perform r.1 (.load [])) = none ∧
    ((perform (Session.fresh Config.gprReference) (.run 0)).bind fun r => perform r.1 (.load [])).isSome = true := ⟨rfl, rfl, rfl⟩

theorem witness_RunRepeatsStepUntilTerminal :
    (∃ t, State.reset.status = .running ∧ step State.reset = .next t) ∧
    ({ State.reset with status := .halted } : State).status ≠ .running := ⟨⟨_, rfl, rfl⟩, by decide⟩

theorem witness_AssemblyTextAssembles : (Instr.ldi 7 0xFF).wf = true ∧ (Instr.xor 0 7).wf = true := by decide

end Sys2Proof.Tests
end

/-! # What an execution and a step can do, and the statements of 00_scope.md -/

namespace Sys2Proof.Proofs

open Sys2Proof Sys2Proof.Machine Sys2Proof.Claims

/-! ### What an execution can end in -/

/-- The check that a raise reports has failed in an execution of `i` from `s`, and the checks before it in the order of
R207 have passed. An execution never raises DECODE or FETCH: those checks come before it (R80). -/
def CheckFails (i : Instr) (s : State) : Raise → Prop
  | .decode | .fetch _ => False
  | .regIndex b => i.regOperands.find? (fun x => 8 ≤ x.toNat) = some b
  | .returnAddress n =>
    i.wf = true ∧ (∃ a, i = .call a ∨ i = .int a) ∧ n = s.pc.toNat + lengthOf (opcodeByte i) ∧ 256 ≤ n
  | .vector n =>
    ∃ a r, i = .int a ∧ Names a r ∧ s.pc.toNat + 2 ≤ 255 ∧ n = 248 + (interruptNumber s r).toNat ∧ 256 ≤ n
  | .numeric => i.wf = true ∧ ∃ a b r, (i = .div a b ∨ i = .mod a b) ∧ Names b r ∧ s.reg r = 0#8
  | .pcAdvance n => GenericallyAdvances i s ∧ n = s.pc.toNat + lengthOf (opcodeByte i) ∧ 256 ≤ n

/-- What every execution that commits keeps, HLT apart: the status, the fault record and the canonical form of memory. -/
structure Keeps (s t : State) : Prop where
  status : t.status = s.status
  fault : t.fault = s.fault
  memory : Memory.wf s.mem = true → Memory.wf t.mem = true

/-- The three ways an execution of `i` from `s` can end. -/
inductive Ends (i : Instr) (s : State) : State → Prop where
  | commits {t : State} (notHlt : i ≠ .hlt) (keeps : Keeps s t) : Ends i s t
  | halts (isHlt : i = .hlt) : Ends i s s.halt
  | faults {r : Raise} (failed : CheckFails i s r) :
    Ends i s (s.takeFault (r.record s.pc (opcodeByte i) (operandBytes i)))

/-- The result of an execution is a next state, in one of the three ways. -/
def Answers (i : Instr) (s : State) (result : Result) : Prop := ∃ t, result = .next t ∧ Ends i s t

/-! ### What the state's operations keep -/

theorem Keeps.refl (s : State) : Keeps s s := ⟨rfl, rfl, id⟩

theorem Keeps.setPc {s w : State} (h : Keeps s w) (v : Byte) : Keeps s (w.setPc v) := ⟨h.status, h.fault, h.memory⟩

theorem keeps_setReg (s : State) (r : RegIdx) (v : Byte) : Keeps s (s.setReg r v) := ⟨rfl, rfl, id⟩

theorem keeps_setFlags (s : State) (f : Flags) : Keeps s (s.setFlags f) := ⟨rfl, rfl, id⟩

theorem keeps_emit (s : State) (e : OutEvent) : Keeps s (s.emit e) := ⟨rfl, rfl, id⟩

theorem keeps_popReg (s : State) (r : RegIdx) : Keeps s (s.popReg r) := ⟨rfl, rfl, id⟩

theorem keeps_write (s : State) (a v : Byte) : Keeps s (s.write a v) := ⟨rfl, rfl, fun hm => State.write_wf hm a v⟩

theorem keeps_pushVal (s : State) (v : Byte) : Keeps s (s.pushVal v) := ⟨rfl, rfl, fun hm => State.pushVal_wf hm v⟩

theorem keeps_pushReg (s : State) (r : RegIdx) : Keeps s (s.pushReg r) := by
  rw [State.pushReg_eq]
  exact keeps_pushVal s _

theorem keeps_pushFrame (s : State) (ret : Byte) : Keeps s (s.pushFrame ret) := by
  obtain ⟨-, -, hstatus, hfault, -⟩ := State.pushFrame_fields s ret
  exact ⟨hstatus, hfault, fun hm => State.pushFrame_wf hm ret⟩

/-- A register read after the frame is pushed: the interrupt number when it is read from that register (R141). -/
theorem pushFrame_reg (s : State) (ret : Byte) (r : RegIdx) : (s.pushFrame ret).reg r = interruptNumber s r := by
  obtain ⟨-, -, -, -, -, hother, hsp⟩ := State.pushFrame_fields s ret
  unfold interruptNumber
  split
  · next h => rw [h, hsp]
  · next h => exact hother r h

/-! ### Each shared operation answers in one of the three ways -/

theorem raise_answers {i : Instr} {s : State} {r : Raise} (h : CheckFails i s r) : Answers i s (raise i s r) :=
  ⟨_, raise_next i s r, .faults h⟩

theorem next_answers {i : Instr} {s t : State} (hi : i ≠ .hlt) (ht : Keeps s t) : Answers i s (.next t) :=
  ⟨t, rfl, .commits hi ht⟩

theorem wf_iff {i : Instr} : i.wf = true ↔ ∀ a ∈ i.regOperands, a.toNat < 8 := by simp [Instr.wf, isRegister]

theorem advance_answers {i : Instr} {s w : State} (hi : GenericallyAdvances i s) (hw : Keeps s w) :
    Answers i s (advance i s w) := by
  have notHlt : i ≠ .hlt := by
    rintro rfl
    exact hi.2
  by_cases hfits : s.pc.toNat + lengthOf (opcodeByte i) ≤ 255
  · rw [advance_next s w rfl hfits]
    exact next_answers notHlt (hw.setPc _)
  · rw [advance_fault s w rfl (by omega)]
    exact raise_answers ⟨hi, rfl, by omega⟩

theorem withReturnAddress_answers {i : Instr} {s : State} {k : Byte → Result} (hwf : i.wf = true)
    (hi : ∃ a, i = .call a ∨ i = .int a)
    (hk : s.pc.toNat + lengthOf (opcodeByte i) ≤ 255 → ∀ ret, Answers i s (k ret)) :
    Answers i s (withReturnAddress i s k) := by
  unfold withReturnAddress
  dsimp only
  split
  · next hlt => exact hk (Nat.le_of_lt_succ hlt) _
  · next hge => exact raise_answers ⟨hwf, hi, rfl, Nat.not_lt.1 hge⟩

theorem withReg_answers_of_regIndex {i : Instr} {s : State} {a : Byte} {k : RegIdx → Result}
    (hbad : 8 ≤ a.toNat → CheckFails i s (.regIndex a)) (hk : ∀ r, Names a r → Answers i s (k r)) :
    Answers i s (withReg i s a k) := by
  by_cases ha : a.toNat < 8
  · rw [withReg_of_named (r := ⟨a.toNat, ha⟩) rfl]
    exact hk _ rfl
  · rw [withReg_of_bad (Nat.not_lt.1 ha)]
    exact raise_answers (hbad (Nat.not_lt.1 ha))

/-- An instruction with one register operand. -/
theorem withReg_answers {i : Instr} {s : State} {a : Byte} {k : RegIdx → Result} (hops : i.regOperands = [a])
    (hk : ∀ r, Names a r → i.wf = true → Answers i s (k r)) : Answers i s (withReg i s a k) :=
  withReg_answers_of_regIndex (fun ha => by simp [CheckFails, hops, ha]) fun r hr =>
    hk r hr (wf_iff.2 (by simp [hops, hr]))

/-- An instruction with two register operands. -/
theorem withRegs_answers {i : Instr} {s : State} {a b : Byte} {k : RegIdx → RegIdx → Result}
    (hops : i.regOperands = [a, b])
    (hk : ∀ ra rb, Names a ra → Names b rb → i.wf = true → Answers i s (k ra rb)) :
    Answers i s (withRegs i s a b k) :=
  withReg_answers_of_regIndex (fun ha => by simp [CheckFails, hops, ha]) fun ra hra =>
    withReg_answers_of_regIndex (fun hb => by simp [CheckFails, hops, hra, hb]) fun rb hrb =>
      hk ra rb hra hrb (wf_iff.2 (by simp [hops, hra, hrb]))

/-- An instruction that makes its working copy from one register and then advances. -/
theorem withReg_advance_answers {i : Instr} {s : State} {a : Byte} {w : RegIdx → State} (hops : i.regOperands = [a])
    (hi : i.wf = true → GenericallyAdvances i s) (hw : ∀ r, Keeps s (w r)) :
    Answers i s (withReg i s a fun r => advance i s (w r)) :=
  withReg_answers hops fun r _ hwf => advance_answers (hi hwf) (hw r)

/-- An instruction that makes its working copy from two registers and then advances. -/
theorem withRegs_advance_answers {i : Instr} {s : State} {a b : Byte} {w : RegIdx → RegIdx → State}
    (hops : i.regOperands = [a, b]) (hi : i.wf = true → GenericallyAdvances i s) (hw : ∀ ra rb, Keeps s (w ra rb)) :
    Answers i s (withRegs i s a b fun ra rb => advance i s (w ra rb)) :=
  withRegs_answers hops fun ra rb _ _ hwf => advance_answers (hi hwf) (hw ra rb)

theorem aluBinary_answers {i : Instr} {f : Byte → Byte → Byte} {a b : Byte} {s : State}
    (hops : i.regOperands = [a, b]) (hi : i.wf = true → GenericallyAdvances i s) : Answers i s (aluBinary i f a b s) :=
  withRegs_advance_answers hops hi fun ra _ => keeps_setReg s ra _

theorem aluUnary_answers {i : Instr} {f : Byte → Byte} {a : Byte} {s : State}
    (hops : i.regOperands = [a]) (hi : i.wf = true → GenericallyAdvances i s) : Answers i s (aluUnary i f a s) :=
  withReg_advance_answers hops hi fun ra => keeps_setReg s ra _

theorem aluDivision_answers {i : Instr} {f : Byte → Byte → Byte} {a b : Byte} {s : State}
    (hi : i = .div a b ∨ i = .mod a b) : Answers i s (aluDivision i f a b s) := by
  have hops : i.regOperands = [a, b] := by rcases hi with rfl | rfl <;> rfl
  refine withRegs_answers hops fun ra rb _ hrb hwf => ?_
  split
  · next hzero => exact raise_answers ⟨hwf, a, b, rb, hi, hrb, hzero⟩
  · next hne =>
    have hdivisor : ∀ r, Names b r → s.reg r ≠ 0#8 := fun r hr => Fin.ext (hr.symm.trans hrb) ▸ hne
    have hadv : GenericallyAdvances i s := by rcases hi with rfl | rfl <;> exact ⟨hwf, hdivisor⟩
    exact advance_answers hadv (keeps_setReg s ra _)

theorem jumpWhen_answers {i : Instr} {taken : Bool} {a : Byte} {s : State} (hops : i.regOperands = [a])
    (hi : i.wf = true → taken = false → GenericallyAdvances i s) : Answers i s (jumpWhen i taken a s) := by
  refine withReg_answers hops fun r _ hwf => ?_
  cases taken with
  | true => exact next_answers (by rintro rfl; cases hops) ((Keeps.refl s).setPc _)
  | false => exact advance_answers (hi hwf rfl) (Keeps.refl s)

theorem enterInterrupt_answers {a : Byte} {s : State} {r : RegIdx} (hr : Names a r) (hwf : (Instr.int a).wf = true) :
    Answers (.int a) s (enterInterrupt (.int a) s r) := by
  have hlen : lengthOf (opcodeByte (.int a)) = 2 := by simp [lengthOf, countField, opcodeByte]
  refine withReturnAddress_answers hwf ⟨a, .inr rfl⟩ fun hfits ret => ?_
  dsimp only
  rw [pushFrame_reg]
  split
  · exact next_answers (by simp) ((keeps_pushFrame s ret).setPc _)
  · next hva => exact raise_answers ⟨a, r, rfl, hr, hlen ▸ hfits, rfl, Nat.not_lt.1 hva⟩

theorem returnFromInterrupt_answers (s : State) : Answers .iret s (returnFromInterrupt s) := by
  have hret : returnFromInterrupt s = .next (popOrder.foldl State.popReg s).popFlagsAndPc := by rw [returnFromInterrupt]
  obtain ⟨hmem, hstatus, hfault, -⟩ := returnFromInterrupt_fields hret
  rw [hret]
  exact next_answers (by simp) ⟨hstatus, hfault, fun hm => by rwa [hmem]⟩

/-- CALL pushes its return address and jumps. -/
theorem execCall_answers (a : Byte) (s : State) : Answers (.call a) s (execCall a s) :=
  withReg_answers rfl fun _ _ hwf => withReturnAddress_answers hwf ⟨a, .inl rfl⟩ fun _ ret =>
    next_answers (by simp) ((keeps_pushVal s ret).setPc _)

/-- Every execution answers a next state, and it commits, halts, or takes the fault of the first check that fails. -/
theorem exec_answers (i : Instr) (s : State) : Answers i s (exec i s) := by
  unfold exec
  cases i with
  | ldi a imm => exact withReg_advance_answers rfl (fun hwf => ⟨hwf, trivial⟩) fun ra => keeps_setReg s ra imm
  | ld a b => exact withRegs_advance_answers rfl (fun hwf => ⟨hwf, trivial⟩) fun ra _ => keeps_setReg s ra _
  | st a b => exact withRegs_advance_answers rfl (fun hwf => ⟨hwf, trivial⟩) fun _ _ => keeps_write s _ _
  | prn a => exact withReg_advance_answers rfl (fun hwf => ⟨hwf, trivial⟩) fun _ => keeps_emit s _
  | pra a => exact withReg_advance_answers rfl (fun hwf => ⟨hwf, trivial⟩) fun _ => keeps_emit s _
  | push a => exact withReg_advance_answers rfl (fun hwf => ⟨hwf, trivial⟩) (keeps_pushReg s)
  | pop a => exact withReg_advance_answers rfl (fun hwf => ⟨hwf, trivial⟩) (keeps_popReg s)
  | call a => exact execCall_answers a s
  | ret => exact next_answers (by simp) ((keeps_setReg s SP _).setPc _)
  | int a => exact withReg_answers rfl fun _ hr hwf => enterInterrupt_answers hr hwf
  | iret => exact returnFromInterrupt_answers s
  | jmp a => exact jumpWhen_answers rfl fun _ h => by cases h
  | jeq a => exact jumpWhen_answers rfl fun hwf h => ⟨hwf, h⟩
  | jne a => exact jumpWhen_answers rfl fun hwf h => ⟨hwf, by simpa using h⟩
  | jgt a => exact jumpWhen_answers rfl fun hwf h => ⟨hwf, h⟩
  | jlt a => exact jumpWhen_answers rfl fun hwf h => ⟨hwf, h⟩
  | add a b => exact aluBinary_answers rfl fun hwf => ⟨hwf, trivial⟩
  | sub a b => exact aluBinary_answers rfl fun hwf => ⟨hwf, trivial⟩
  | mul a b => exact aluBinary_answers rfl fun hwf => ⟨hwf, trivial⟩
  | div a b => exact aluDivision_answers (.inl rfl)
  | mod a b => exact aluDivision_answers (.inr rfl)
  | inc a => exact aluUnary_answers rfl fun hwf => ⟨hwf, trivial⟩
  | dec a => exact aluUnary_answers rfl fun hwf => ⟨hwf, trivial⟩
  | cmp a b => exact withRegs_advance_answers rfl (fun hwf => ⟨hwf, trivial⟩) fun _ _ => keeps_setFlags s _
  | and a b => exact aluBinary_answers rfl fun hwf => ⟨hwf, trivial⟩
  | or a b => exact aluBinary_answers rfl fun hwf => ⟨hwf, trivial⟩
  | xor a b => exact aluBinary_answers rfl fun hwf => ⟨hwf, trivial⟩
  | not a => exact aluUnary_answers rfl fun hwf => ⟨hwf, trivial⟩
  | hlt => exact ⟨_, rfl, .halts rfl⟩

/-- Everything an execution that goes on can have done. -/
theorem exec_ends {i : Instr} {s t : State} (h : exec i s = .next t) : Ends i s t := by
  obtain ⟨u, hu, hends⟩ := exec_answers i s
  cases h.symm.trans hu
  exact hends

/-! ### What a fetch finds -/

/-- The bytes of the instruction stand at the pc, inside memory (R60). -/
structure StandsAtPc (s : State) (i : Instr) : Prop where
  opcode : opcodeByte i = s.read s.pc
  operands : operandBytes i = (List.range' (s.pc.toNat + 1) (operandBytes i).length).map s.mem.read
  inside : s.pc.toNat + (operandBytes i).length < 256

/-- What a row's form makes has the row's opcode byte, and for operand bytes the ones it was made from. -/
def FormFits (r : Row) : Prop :=
  match r.form with
  | .noOperand i => opcodeByte i = r.opcode ∧ operandBytes i = []
  | .oneOperand mk => ∀ a, opcodeByte (mk a) = r.opcode ∧ operandBytes (mk a) = [a]
  | .twoOperands mk => ∀ a b, opcodeByte (mk a b) = r.opcode ∧ operandBytes (mk a b) = [a, b]

theorem formFits_of_mem : ∀ r ∈ opcodeMap, FormFits r := by
  simp [opcodeMap, rowsDataAndOutput, rowsControl, rowsAlu, FormFits, opcodeByte, operandBytes]

/-- What decodes has its encoding at the head of the bytes (R60, R64). -/
theorem encode_of_decodeFrom_ok {op : Byte} {rest left : List Byte} {i : Instr}
    (h : decodeFrom op rest = .ok (i, left)) : opcodeByte i = op ∧ rest = operandBytes i ++ left := by
  unfold decodeFrom at h
  split at h
  · cases h
  · next row hrow =>
    obtain ⟨hmem, rfl⟩ := findRow_some hrow
    have fits := formFits_of_mem row hmem
    split at h
    · next hform =>
      cases h
      simp only [FormFits, hform] at fits
      exact ⟨fits.1, by simp [fits.2]⟩
    · next a _ hform =>
      cases h
      simp only [FormFits, hform] at fits
      exact ⟨(fits a).1, by simp [(fits a).2]⟩
    · next a b _ hform =>
      cases h
      simp only [FormFits, hform] at fits
      exact ⟨(fits a b).1, by simp [(fits a b).2]⟩
    · cases h
    · cases h

/-- An opcode byte that decodes to no instruction has no row (R84). -/
theorem classify_eq_none_of_decodeFrom {op op' : Byte} {rest : List Byte}
    (h : decodeFrom op rest = .error (.noInstruction op')) : op' = op ∧ classify op = none := by
  unfold decodeFrom at h
  split at h
  · next hrow =>
    cases h
    exact ⟨rfl, classify_eq_none.2 hrow⟩
  · split at h <;> cases h

/-- Where operand bytes are missing, the bytes that are there are reported, and they are fewer than two (R81). -/
theorem got_of_decodeFrom_missing {op op' : Byte} {rest got : List Byte}
    (h : decodeFrom op rest = .error (.missingOperand op' got)) : op' = op ∧ got = rest ∧ rest.length < 2 := by
  unfold decodeFrom at h
  split at h
  · cases h
  · split at h
    · cases h
    · cases h
    · cases h
    · cases h
      exact ⟨rfl, rfl, Nat.zero_lt_two⟩
    · next hshort =>
      cases h
      refine ⟨rfl, rfl, ?_⟩
      match got, hshort with
      | [], _ => exact Nat.zero_lt_two
      | [_], _ => exact Nat.one_lt_two
      | a :: b :: more, hshort => exact absurd rfl (hshort a b more)

theorem decodeFrom_ne_noBytes (op : Byte) (rest : List Byte) : decodeFrom op rest ≠ .error .noBytes := by
  unfold decodeFrom
  split
  · simp
  · split <;> simp

/-- The window holds the bytes after the opcode, two of them or as many as memory has. -/
theorem operandWindow_eq (s : State) :
    s.operandWindow = (List.range' (s.pc.toNat + 1) (min 2 (255 - s.pc.toNat))).map s.mem.read := by
  have hpc := s.pc.isLt
  have hrange : List.range' (s.pc.toNat + 1) maxOperands = [s.pc.toNat + 1, s.pc.toNat + 2] := rfl
  rw [State.operandWindow, hrange]
  congr 1
  obtain hle | heq | heq : s.pc.toNat ≤ 253 ∨ s.pc.toNat = 254 ∨ s.pc.toNat = 255 := by omega
  · have hmin : min 2 (255 - s.pc.toNat) = 2 := by omega
    have hfirst : s.pc.toNat + 1 < 256 := by omega
    have hsecond : s.pc.toNat + 2 < 256 := by omega
    simp [hmin, hfirst, hsecond, List.range'_succ]
  · rw [heq]
    rfl
  · rw [heq]
    rfl

theorem operandWindow_length (s : State) : s.operandWindow.length = min 2 (255 - s.pc.toNat) := by
  simp [operandWindow_eq]

/-- A fetch that succeeds finds the bytes of its instruction at the pc. -/
theorem standsAtPc_of_fetch_ok {s : State} {i : Instr} (h : fetch s = .ok i) : StandsAtPc s i := by
  unfold fetch at h
  split at h
  · next left hdec =>
    cases h
    obtain ⟨hop, hwindow⟩ := encode_of_decodeFrom_ok hdec
    rw [operandWindow_eq] at hwindow
    obtain ⟨addresses, _, hsplit, hbytes, -⟩ := List.map_eq_append_iff.1 hwindow
    obtain ⟨k, hk, rfl, -⟩ := List.range'_eq_append_iff.1 hsplit
    have hlen : (operandBytes i).length = k := by simp [← hbytes]
    have hpc := s.pc.isLt
    exact ⟨hop, by rw [hlen, hbytes], by omega⟩
  · cases h

/-- The record of a fetch that fails agrees with the machine. -/
theorem recordAgrees_of_fetch_error {s : State} {f : FaultRecord} (h : fetch s = .error f) : RecordAgrees s f := by
  unfold fetch at h
  split at h
  · cases h
  · next e hdec =>
    cases h
    have hpc := s.pc.isLt
    cases e with
    | noBytes => exact absurd hdec (decodeFrom_ne_noBytes _ _)
    | noInstruction op =>
      obtain ⟨rfl, hnone⟩ := classify_eq_none_of_decodeFrom hdec
      exact ⟨rfl, rfl, rfl, hpc, hnone, rfl, rfl⟩
    | missingOperand op got =>
      obtain ⟨rfl, rfl, hshort⟩ := got_of_decodeFrom_missing hdec
      have hlen : s.operandWindow.length = 255 - s.pc.toNat := by
        rw [operandWindow_length] at hshort ⊢
        omega
      have hbytes : s.operandWindow = (List.range' (s.pc.toNat + 1) s.operandWindow.length).map s.mem.read := by
        rw [operandWindow_length, ← operandWindow_eq]
      have hinside : s.pc.toNat + s.operandWindow.length < 256 := by omega
      have hdetail : s.pc.toNat + s.operandWindow.length + 1 = 256 := by omega
      exact ⟨rfl, rfl, hbytes, hinside, hdetail⟩

/-! ### What a step can do -/

theorem regOperands_subset (i : Instr) : i.regOperands ⊆ operandBytes i := by
  cases i <;> simp [Instr.regOperands, operandBytes]

/-- The record of an execution's fault agrees with the machine, when the instruction is the one at the pc. -/
theorem recordAgrees_of_checkFails {s : State} {i : Instr} (hi : StandsAtPc s i) {r : Raise} (hr : CheckFails i s r) :
    RecordAgrees s (r.record s.pc (opcodeByte i) (operandBytes i)) := by
  obtain ⟨hop, hops, hin⟩ := hi
  have hlen : lengthOf (opcodeByte i) = (operandBytes i).length + 1 := by
    obtain ⟨-, -, -, -, hlen, -⟩ := Laws.Rows.all i
    exact hlen
  refine ⟨rfl, hop, hops, hin, ?_⟩
  cases r with
  | decode => exact hr.elim
  | fetch n => exact hr.elim
  | regIndex b =>
    have hbad : 8 ≤ b.toNat := by simpa using List.find?_some hr
    exact ⟨hbad, b, regOperands_subset i (List.mem_of_find?_eq_some hr), rfl⟩
  | pcAdvance n =>
    obtain ⟨-, rfl, hge⟩ := hr
    show s.pc.toNat + lengthOf (opcodeByte i) = 256
    omega
  | returnAddress n =>
    obtain ⟨-, ⟨a, hi⟩, rfl, hge⟩ := hr
    have hdetail : s.pc.toNat + lengthOf (opcodeByte i) = 256 := by omega
    rcases hi with rfl | rfl
    · exact ⟨hdetail, .inl rfl⟩
    · exact ⟨hdetail, .inr rfl⟩
  | vector n =>
    obtain ⟨a, q, rfl, -, -, rfl, hge⟩ := hr
    have hnumber := (interruptNumber s q).isLt
    exact ⟨hge, by show 248 + (interruptNumber s q).toNat ≤ 248 + 255; omega, rfl⟩
  | numeric =>
    obtain ⟨-, a, b, q, hi, -, -⟩ := hr
    rcases hi with rfl | rfl
    · exact ⟨rfl, .inl rfl⟩
    · exact ⟨rfl, .inr rfl⟩

/-- Everything a step can have done: nothing on a machine that has stopped, and else commit, halt at a HLT, or take a
fault whose record agrees with the machine. -/
theorem step_effect {s t : State} (h : step s = .next t) :
    (s.status ≠ .running ∧ t = s) ∨
    (s.status = .running ∧
      (Keeps s t ∨ (s.read s.pc = 0x01#8 ∧ t = s.halt) ∨ ∃ f, RecordAgrees s f ∧ t = s.takeFault f)) := by
  rcases step_cases h with hstopped | ⟨hs, i, hi, hexec⟩ | ⟨hs, f, hf, rfl⟩
  · exact .inl hstopped
  · have stands := standsAtPc_of_fetch_ok hi
    refine .inr ⟨hs, ?_⟩
    cases exec_ends hexec with
    | commits _ hkeeps => exact .inl hkeeps
    | halts hhlt =>
      subst hhlt
      exact .inr (.inl ⟨stands.opcode.symm, rfl⟩)
    | faults hfail => exact .inr (.inr ⟨_, recordAgrees_of_checkFails stands hfail, rfl⟩)
  · exact .inr ⟨hs, .inr (.inr ⟨f, recordAgrees_of_fetch_error hf, rfl⟩)⟩

/-- A RUNNING machine of the invariant holds no fault record. -/
theorem fault_eq_none_of_running {s : State} (hs : s.status = .running) (hinv : Inv s) : s.fault = none := by
  simpa [hs] using hinv.faulted_iff

theorem inv_of_keeps {s t : State} (hs : s.status = .running) (hinv : Inv s) (h : Keeps s t) : Inv t := by
  have hstatus : t.status = .running := h.status.trans hs
  have hfault : t.fault = none := h.fault.trans (fault_eq_none_of_running hs hinv)
  exact ⟨h.memory hinv.memory, by simp [hstatus, hfault], by simp [hfault], by simp [hstatus]⟩

theorem inv_halt {s : State} (hs : s.status = .running) (hinv : Inv s) (hhlt : s.read s.pc = 0x01#8) : Inv s.halt := by
  have hnone := fault_eq_none_of_running hs hinv
  exact ⟨hinv.memory, by simp [hnone], by simp [hnone], fun _ => hhlt⟩

theorem inv_takeFault {s : State} {f : FaultRecord} (hinv : Inv s) (hf : RecordAgrees s f) : Inv (s.takeFault f) := by
  refine ⟨hinv.memory, by simp, fun g hg => ?_, by simp⟩
  cases hg
  exact hf

/-! ### The statements of 00_scope.md -/

/-- Settles O4, by the cases of a step: a step that commits keeps the invariant's parts, a HLT leaves the pc at its own
byte, and a fault's record agrees with the machine. -/
theorem stepKeepsInvariant : Obligations.StepKeepsInvariant := by
  intro s t hinv h
  rcases step_effect h with ⟨-, rfl⟩ | ⟨hs, hkeeps | ⟨hhlt, rfl⟩ | ⟨f, hf, rfl⟩⟩
  · exact hinv
  · exact inv_of_keeps hs hinv hkeeps
  · exact inv_halt hs hinv hhlt
  · exact inv_takeFault hinv hf

/-- Settles O13: of the ways an execution and a step can end, only taking a fault makes a machine FAULTED. -/
theorem faultingCommitsNothing : Obligations.FaultingCommitsNothing := by
  refine ⟨fun i s t h hs ht => ?_, fun s t h hs ht => ?_⟩
  · cases exec_ends h with
    | commits _ hkeeps => exact absurd (hkeeps.status.symm.trans ht) hs
    | halts => cases ht
    | faults => exact ⟨_, rfl, rfl, rfl, rfl⟩
  · rcases step_effect h with ⟨-, rfl⟩ | ⟨-, hkeeps | ⟨-, rfl⟩ | ⟨f, ⟨haddr, hopcode, -⟩, rfl⟩⟩
    · exact absurd ht hs
    · exact absurd (hkeeps.status.symm.trans ht) hs
    · cases ht
    · exact ⟨f, haddr, hopcode, rfl⟩

/-- Settles O2: both sides are the same state, and its register file is a literal. -/
theorem fixedResetUsesReferenceRegisters : Obligations.FixedResetUsesReferenceRegisters :=
  ⟨rfl, by decide⟩

/-- Settles O5: every execution answers a next state, and so does every other branch of the step. -/
theorem stepAlwaysAnswersNext : Obligations.StepAlwaysAnswersNext := by
  intro s
  unfold step
  split
  · split
    · next i _ =>
      obtain ⟨t, ht, -⟩ := exec_answers i s
      exact ⟨t, ht⟩
    · exact ⟨_, rfl⟩
  · exact ⟨s, rfl⟩
  · exact ⟨s, rfl⟩

end Sys2Proof.Proofs

/-! # The state: flags, status, output trace (10_state.md) -/

namespace Sys2Proof.Proofs

open Sys2Proof Sys2Proof.Machine Sys2Proof.Claims

/-! ### Executions that fault, or commit to a state with a given property -/

/-- Where the result goes on, it does so with a fault of `i` in `s`, or with a state of which `P` holds. -/
def CommitsTo (i : Instr) (s : State) (P : State → Prop) (result : Result) : Prop :=
  ∀ t, result = .next t → (∃ r, raise i s r = .next t) ∨ P t

section
variable {i : Instr} {s w : State} {P : State → Prop} {a b : Byte}

theorem next_commitsTo (hw : P w) : CommitsTo i s P (.next w) := by
  rintro t ⟨⟩
  exact .inr hw

theorem raise_commitsTo (r : Raise) : CommitsTo i s P (raise i s r) := fun _ h => .inl ⟨r, h⟩

theorem advance_commitsTo (hw : ∀ v, P (w.setPc v)) : CommitsTo i s P (advance i s w) := by
  intro t h
  rcases advance_cases h with ⟨-, rfl⟩ | ⟨-, hraise⟩
  · exact .inr (hw _)
  · exact .inl ⟨_, hraise⟩

theorem withReg_commitsTo {k : RegIdx → Result} (hk : ∀ r, Names a r → CommitsTo i s P (k r)) :
    CommitsTo i s P (withReg i s a k) := by
  intro t h
  rcases withReg_cases h with ⟨r, hr, h⟩ | ⟨-, hraise⟩
  · exact hk r hr t h
  · exact .inl ⟨_, hraise⟩

theorem withRegs_commitsTo {k : RegIdx → RegIdx → Result}
    (hk : ∀ ra rb, Names a ra → Names b rb → CommitsTo i s P (k ra rb)) : CommitsTo i s P (withRegs i s a b k) :=
  withReg_commitsTo fun ra ha => withReg_commitsTo fun rb hb => hk ra rb ha hb

theorem withReturnAddress_commitsTo {k : Byte → Result} (hk : ∀ ret, CommitsTo i s P (k ret)) :
    CommitsTo i s P (withReturnAddress i s k) := by
  intro t h
  rcases withReturnAddress_cases h with ⟨-, h⟩ | ⟨-, hraise⟩
  · exact hk _ t h
  · exact .inl ⟨_, hraise⟩

theorem aluBinary_commitsTo {f : Byte → Byte → Byte} (hw : ∀ r x v, P ((s.setReg r x).setPc v)) :
    CommitsTo i s P (aluBinary i f a b s) :=
  withRegs_commitsTo fun ra _ _ _ => advance_commitsTo (hw ra _)

theorem aluUnary_commitsTo {f : Byte → Byte} (hw : ∀ r x v, P ((s.setReg r x).setPc v)) :
    CommitsTo i s P (aluUnary i f a s) :=
  withReg_commitsTo fun ra _ => advance_commitsTo (hw ra _)

theorem aluDivision_commitsTo {f : Byte → Byte → Byte} (hw : ∀ r x v, P ((s.setReg r x).setPc v)) :
    CommitsTo i s P (aluDivision i f a b s) := by
  refine withRegs_commitsTo fun ra _ _ _ => ?_
  split
  · exact raise_commitsTo _
  · exact advance_commitsTo (hw ra _)

theorem jumpWhen_commitsTo {taken : Bool} (hw : ∀ v, P (s.setPc v)) : CommitsTo i s P (jumpWhen i taken a s) := by
  refine withReg_commitsTo fun r _ => ?_
  split
  · exact next_commitsTo (hw _)
  · exact advance_commitsTo hw

theorem enterInterrupt_commitsTo {r : RegIdx} (hw : ∀ ret v, P ((s.pushFrame ret).setPc v)) :
    CommitsTo i s P (enterInterrupt i s r) := by
  refine withReturnAddress_commitsTo fun ret => ?_
  dsimp only
  split
  · exact next_commitsTo (hw ret _)
  · exact raise_commitsTo _

end

/-! ### The byte of the flags -/

/-- Bits 0, 1, 2 of the byte are E, G, L, and the bits above are zeros (R24). -/
theorem toByte_getLsbD (f : Flags) {k : Nat} (hk : k < 8) : f.toByte.getLsbD k = [f.e, f.g, f.l].getD k false := by
  obtain ⟨e, g, l⟩ := f
  revert e g l k
  decide

/-! ### What a committed execution does to the flags and to the trace -/

/-- FL is kept by every instruction that does not write it, and the trace grows by the events the instruction sends. -/
structure FlagsAndTrace (i : Instr) (s t : State) : Prop where
  flags : writesFlags i = false → t.fl = s.fl
  trace : t.out = s.out ++ sentEvents i s

/-- A state whose flags and trace are those of `s` will do for an instruction that sends nothing. -/
theorem FlagsAndTrace.of_kept {i : Instr} {s t : State} (hsent : sentEvents i s = []) (hfl : t.fl = s.fl)
    (hout : t.out = s.out) : FlagsAndTrace i s t :=
  ⟨fun _ => hfl, by rw [hout, hsent, List.append_nil]⟩

theorem namedRegs_of_names {a : Byte} {r : RegIdx} (h : Names a r) : namedRegs a = [r] := by
  have hone : ∀ r : RegIdx, (List.finRange 8).filter (fun q => r.val = q.val) = [r] := by decide
  simp only [namedRegs, h, hone]

theorem exec_flagsAndTrace (i : Instr) (s : State) : CommitsTo i s (FlagsAndTrace i s) (exec i s) := by
  unfold exec
  cases i with
  | ldi a imm => exact withReg_commitsTo fun _ _ => advance_commitsTo fun _ => .of_kept rfl rfl rfl
  | ld a b => exact withRegs_commitsTo fun _ _ _ _ => advance_commitsTo fun _ => .of_kept rfl rfl rfl
  | st a b => exact withRegs_commitsTo fun _ _ _ _ => advance_commitsTo fun _ => .of_kept rfl rfl rfl
  | prn a =>
    exact withReg_commitsTo fun r hr => advance_commitsTo fun _ =>
      ⟨fun _ => rfl, by simp [sentEvents, namedRegs_of_names hr]⟩
  | pra a =>
    exact withReg_commitsTo fun r hr => advance_commitsTo fun _ =>
      ⟨fun _ => rfl, by simp [sentEvents, namedRegs_of_names hr]⟩
  | push a => exact withReg_commitsTo fun _ _ => advance_commitsTo fun _ => .of_kept rfl rfl rfl
  | pop a => exact withReg_commitsTo fun _ _ => advance_commitsTo fun _ => .of_kept rfl rfl rfl
  | call a =>
    exact withReg_commitsTo fun _ _ => withReturnAddress_commitsTo fun _ => next_commitsTo (.of_kept rfl rfl rfl)
  | ret => exact next_commitsTo (.of_kept rfl rfl rfl)
  | int a =>
    refine withReg_commitsTo fun _ _ => enterInterrupt_commitsTo fun ret _ => ?_
    obtain ⟨-, hfl, -, -, hout, -⟩ := State.pushFrame_fields s ret
    exact .of_kept rfl hfl hout
  | iret =>
    intro t h
    obtain ⟨-, -, -, hout⟩ := returnFromInterrupt_fields h
    exact .inr ⟨nofun, hout.trans (List.append_nil _).symm⟩
  | jmp a => exact jumpWhen_commitsTo fun _ => .of_kept rfl rfl rfl
  | jeq a => exact jumpWhen_commitsTo fun _ => .of_kept rfl rfl rfl
  | jne a => exact jumpWhen_commitsTo fun _ => .of_kept rfl rfl rfl
  | jgt a => exact jumpWhen_commitsTo fun _ => .of_kept rfl rfl rfl
  | jlt a => exact jumpWhen_commitsTo fun _ => .of_kept rfl rfl rfl
  | add a b => exact aluBinary_commitsTo fun _ _ _ => .of_kept rfl rfl rfl
  | sub a b => exact aluBinary_commitsTo fun _ _ _ => .of_kept rfl rfl rfl
  | mul a b => exact aluBinary_commitsTo fun _ _ _ => .of_kept rfl rfl rfl
  | div a b => exact aluDivision_commitsTo fun _ _ _ => .of_kept rfl rfl rfl
  | mod a b => exact aluDivision_commitsTo fun _ _ _ => .of_kept rfl rfl rfl
  | inc a => exact aluUnary_commitsTo fun _ _ _ => .of_kept rfl rfl rfl
  | dec a => exact aluUnary_commitsTo fun _ _ _ => .of_kept rfl rfl rfl
  | cmp a b =>
    exact withRegs_commitsTo fun _ _ _ _ => advance_commitsTo fun _ => ⟨nofun, (List.append_nil _).symm⟩
  | and a b => exact aluBinary_commitsTo fun _ _ _ => .of_kept rfl rfl rfl
  | or a b => exact aluBinary_commitsTo fun _ _ _ => .of_kept rfl rfl rfl
  | xor a b => exact aluBinary_commitsTo fun _ _ _ => .of_kept rfl rfl rfl
  | not a => exact aluUnary_commitsTo fun _ _ _ => .of_kept rfl rfl rfl
  | hlt => exact next_commitsTo (.of_kept rfl rfl rfl)

/-! ### Earlier output is not observed -/

/-- The machine with events put in front of its trace. -/
def prependOut (earlier : List OutEvent) (s : State) : State := { s with out := earlier ++ s.out }

/-- A result with events put in front of the trace of the state it goes on with. -/
def prependOutResult (earlier : List OutEvent) : Result → Result
  | .next t => .next (prependOut earlier t)
  | .fault f => .fault f
  | .refused r => .refused r

section
variable {earlier : List OutEvent} {i : Instr} {s w w' : State} {a b : Byte}

theorem prependOut_emit (e : OutEvent) : (prependOut earlier s).emit e = prependOut earlier (s.emit e) := by
  simp [prependOut, State.emit]

theorem prependOut_pushVal (v : Byte) : (prependOut earlier s).pushVal v = prependOut earlier (s.pushVal v) := rfl

theorem prependOut_pushRegs (rs : List RegIdx) :
    rs.foldl State.pushReg (prependOut earlier s) = prependOut earlier (rs.foldl State.pushReg s) :=
  List.foldl_hom (prependOut earlier) fun _ _ => rfl

theorem prependOut_pushFrame (ret : Byte) : (prependOut earlier s).pushFrame ret = prependOut earlier (s.pushFrame ret) := by
  have hfl : (prependOut earlier s).fl = s.fl := rfl
  rw [State.pushFrame, prependOut_pushVal, prependOut_pushVal, prependOut_pushRegs, hfl, State.pushFrame]

theorem prependOut_popRegs (rs : List RegIdx) :
    rs.foldl State.popReg (prependOut earlier s) = prependOut earlier (rs.foldl State.popReg s) :=
  List.foldl_hom (prependOut earlier) fun _ _ => rfl

theorem prependOut_popFlagsAndPc : (prependOut earlier s).popFlagsAndPc = prependOut earlier s.popFlagsAndPc := rfl

theorem prependOutResult_ite {c : Prop} [Decidable c] (yes no : Result) :
    prependOutResult earlier (if c then yes else no) =
      if c then prependOutResult earlier yes else prependOutResult earlier no :=
  apply_ite (prependOutResult earlier) c yes no

theorem advance_prependOut (hw : w' = prependOut earlier w) :
    advance i (prependOut earlier s) w' = prependOutResult earlier (advance i s w) := by
  simp only [hw, advance, prependOutResult_ite]
  rfl

theorem withReg_prependOut {k k' : RegIdx → Result} (hk : ∀ r, k' r = prependOutResult earlier (k r)) :
    withReg i (prependOut earlier s) a k' = prependOutResult earlier (withReg i s a k) := by
  unfold withReg
  split
  · exact hk _
  · rfl

theorem withRegs_prependOut {k k' : RegIdx → RegIdx → Result}
    (hk : ∀ ra rb, k' ra rb = prependOutResult earlier (k ra rb)) :
    withRegs i (prependOut earlier s) a b k' = prependOutResult earlier (withRegs i s a b k) :=
  withReg_prependOut fun ra => withReg_prependOut (hk ra)

theorem withReturnAddress_prependOut {k k' : Byte → Result} (hk : ∀ ret, k' ret = prependOutResult earlier (k ret)) :
    withReturnAddress i (prependOut earlier s) k' = prependOutResult earlier (withReturnAddress i s k) := by
  simp only [hk, withReturnAddress, prependOutResult_ite]
  rfl

theorem aluBinary_prependOut {f : Byte → Byte → Byte} :
    aluBinary i f a b (prependOut earlier s) = prependOutResult earlier (aluBinary i f a b s) :=
  withRegs_prependOut fun _ _ => advance_prependOut rfl

theorem aluUnary_prependOut {f : Byte → Byte} :
    aluUnary i f a (prependOut earlier s) = prependOutResult earlier (aluUnary i f a s) :=
  withReg_prependOut fun _ => advance_prependOut rfl

theorem aluDivision_prependOut {f : Byte → Byte → Byte} :
    aluDivision i f a b (prependOut earlier s) = prependOutResult earlier (aluDivision i f a b s) := by
  refine withRegs_prependOut fun ra rb => ?_
  rw [prependOutResult_ite, ← advance_prependOut rfl]
  rfl

theorem jumpWhen_prependOut {taken : Bool} :
    jumpWhen i taken a (prependOut earlier s) = prependOutResult earlier (jumpWhen i taken a s) := by
  refine withReg_prependOut fun r => ?_
  cases taken with
  | true => rfl
  | false => exact advance_prependOut rfl

theorem enterInterrupt_prependOut {r : RegIdx} :
    enterInterrupt i (prependOut earlier s) r = prependOutResult earlier (enterInterrupt i s r) := by
  refine withReturnAddress_prependOut fun ret => ?_
  simp only [prependOut_pushFrame, prependOutResult_ite]
  rfl

theorem returnFromInterrupt_prependOut :
    returnFromInterrupt (prependOut earlier s) = prependOutResult earlier (returnFromInterrupt s) := by
  rw [returnFromInterrupt, prependOut_popRegs, prependOut_popFlagsAndPc, returnFromInterrupt, prependOutResult]

end

/-- An execution passes on the events it finds in the trace, and is otherwise the same. -/
theorem exec_prependOut (earlier : List OutEvent) (i : Instr) (s : State) :
    exec i (prependOut earlier s) = prependOutResult earlier (exec i s) := by
  unfold exec
  cases i with
  | ldi a imm => exact withReg_prependOut fun _ => advance_prependOut rfl
  | ld a b => exact withRegs_prependOut fun _ _ => advance_prependOut rfl
  | st a b => exact withRegs_prependOut fun _ _ => advance_prependOut rfl
  | prn a => exact withReg_prependOut fun _ => advance_prependOut (prependOut_emit _)
  | pra a => exact withReg_prependOut fun _ => advance_prependOut (prependOut_emit _)
  | push a => exact withReg_prependOut fun _ => advance_prependOut rfl
  | pop a => exact withReg_prependOut fun _ => advance_prependOut rfl
  | call a => exact withReg_prependOut fun _ => withReturnAddress_prependOut fun _ => rfl
  | ret => rfl
  | int a => exact withReg_prependOut fun _ => enterInterrupt_prependOut
  | iret => exact returnFromInterrupt_prependOut
  | jmp a => exact jumpWhen_prependOut
  | jeq a => exact jumpWhen_prependOut
  | jne a => exact jumpWhen_prependOut
  | jgt a => exact jumpWhen_prependOut
  | jlt a => exact jumpWhen_prependOut
  | add a b => exact aluBinary_prependOut
  | sub a b => exact aluBinary_prependOut
  | mul a b => exact aluBinary_prependOut
  | div a b => exact aluDivision_prependOut
  | mod a b => exact aluDivision_prependOut
  | inc a => exact aluUnary_prependOut
  | dec a => exact aluUnary_prependOut
  | cmp a b => exact withRegs_prependOut fun _ _ => advance_prependOut rfl
  | and a b => exact aluBinary_prependOut
  | or a b => exact aluBinary_prependOut
  | xor a b => exact aluBinary_prependOut
  | not a => exact aluUnary_prependOut
  | hlt => rfl

theorem fetch_prependOut (earlier : List OutEvent) (s : State) : fetch (prependOut earlier s) = fetch s := rfl

theorem step_prependOut (earlier : List OutEvent) (s : State) :
    step (prependOut earlier s) = prependOutResult earlier (step s) := by
  cases hs : s.status with
  | running =>
    have hs' : (prependOut earlier s).status = .running := hs
    rw [step_running hs, step_running hs', fetch_prependOut]
    cases fetch s with
    | ok i => exact exec_prependOut earlier i s
    | error f => rfl
  | halted => simp only [step, prependOut, hs, prependOutResult]
  | faulted => simp only [step, prependOut, hs, prependOutResult]

/-! ### The statements of 10_state.md -/

/-- Settles O14: HLT halts and keeps the record, and any other instruction commits or takes a fault. -/
theorem statusChangesOnlyByHltOrFault : Obligations.StatusChangesOnlyByHltOrFault := by
  intro i s t h
  by_cases hi : i = .hlt
  · subst hi
    cases h
    exact .inl ⟨rfl, rfl, rfl⟩
  · cases exec_ends h with
    | commits _ hkeeps => exact .inr (.inl ⟨hi, hkeeps.status, hkeeps.fault⟩)
    | halts hhlt => exact absurd hhlt hi
    | faults => exact .inr (.inr ⟨hi, rfl, rfl⟩)

/-- Settles O16: a fault changes no flag, and what commits keeps FL where the instruction does not write it. -/
theorem onlyCmpAndIretWriteFlags : Obligations.OnlyCmpAndIretWriteFlags := by
  intro i s t h hi
  rcases exec_flagsAndTrace i s t h with ⟨r, ⟨⟩⟩ | ht
  · rfl
  · exact ht.flags hi

/-- Settles O18: a fault leaves the trace alone, and what ends without one has sent the instruction's events. -/
theorem outputTraceOnlyGrows : Obligations.OutputTraceOnlyGrows := by
  intro i s t h hs
  split
  · next hfaulted =>
    cases exec_ends h with
    | commits _ hkeeps => cases hs.symm.trans (hkeeps.status.symm.trans hfaulted)
    | halts => cases hfaulted
    | faults => exact (List.append_nil _).symm
  · next hnot =>
    rcases exec_flagsAndTrace i s t h with ⟨r, ⟨⟩⟩ | ht
    · exact absurd rfl hnot
    · exact ht.trace

/-- Settles O19: the step commutes with putting events in front of the trace. -/
theorem earlierOutputIsNeverObserved : Obligations.EarlierOutputIsNeverObserved := by
  intro s t earlier h
  have hstep := step_prependOut earlier s
  rwa [h] at hstep

/-- Settles O3: memory is empty, and the machine is RUNNING with no record. -/
theorem resetMeetsInvariant : Obligations.ResetMeetsInvariant := fun _ _ =>
  ⟨Memory.wf_nil, by simp [State.resetWith], nofun, nofun⟩

/-- Settles O40: the eight values of the flags one by one, and for a byte, bit by bit. -/
theorem flagsByteHoldsLGE : Obligations.FlagsByteHoldsLGE := by
  refine ⟨fun ⟨e, g, l⟩ => ?_, fun t => BitVec.eq_of_getLsbD_eq fun k hk => ?_⟩
  · revert e g l
    decide
  · rw [toByte_getLsbD _ hk, BitVec.getLsbD_and]
    interval_cases k <;> simp [Flags.ofByte]

end Sys2Proof.Proofs

/-! # Memory (20_memory.md) -/

namespace Sys2Proof.Proofs

open Sys2Proof Sys2Proof.Machine Sys2Proof.Claims

/-! ### The bytes that stores and pushes leave alone -/

theorem pushReg_read_other (s : State) (r : RegIdx) {addr : Byte} (h : addr ≠ s.reg SP - 1) :
    (s.pushReg r).read addr = s.read addr := by
  rw [State.pushReg_eq, State.pushVal_read_other s _ h]

/-- A run of pushes leaves the bytes beyond its depth below SP alone; no premise on the memory is needed. -/
theorem pushVals_read_other (bytes : List Byte) {s : State} {addr : Byte}
    (h : bytes.length ≤ (s.reg SP - 1 - addr).toNat) : (bytes.foldl State.pushVal s).read addr = s.read addr := by
  induction bytes generalizing s with
  | nil => rfl
  | cons v vs ih =>
    rw [List.length_cons] at h
    have hne : addr ≠ s.reg SP - 1 := by
      rintro rfl
      simp at h
    have hdepth : vs.length ≤ ((s.pushVal v).reg SP - 1 - addr).toNat := by
      rw [State.pushVal_reg, if_pos rfl]
      bv_omega
    rw [List.foldl_cons, ih hdepth, State.pushVal_read_other s v hne]

theorem depth_of_not_mem_frameAddresses {sp addr : Byte} (h : addr ∉ frameAddresses sp) :
    10 ≤ (sp - 1 - addr).toNat := by
  simp only [frameAddresses, List.mem_cons, List.not_mem_nil, or_false, not_or] at h
  bv_omega

theorem pushFrame_read_other (s : State) (ret : Byte) {addr : Byte} (h : addr ∉ frameAddresses (s.reg SP)) :
    (s.pushFrame ret).read addr = s.read addr := by
  rw [State.pushFrame_eq]
  exact pushVals_read_other _ (depth_of_not_mem_frameAddresses h)

theorem returnFromInterrupt_read {s t : State} (h : returnFromInterrupt s = .next t) (addr : Byte) :
    t.read addr = s.read addr := by
  obtain ⟨hmem, -⟩ := returnFromInterrupt_fields h
  rw [State.read, hmem, State.read]

/-- An execution that commits leaves a byte alone that is not among the ones its instruction stores. -/
theorem exec_keepsByte (i : Instr) (s : State) {addr : Byte} (h : addr ∉ storedAddresses i s) :
    CommitsTo i s (fun t => t.read addr = s.read addr) (exec i s) := by
  unfold exec
  cases i with
  | ldi a imm => exact withReg_commitsTo fun _ _ => advance_commitsTo fun _ => rfl
  | ld a b => exact withRegs_commitsTo fun _ _ _ _ => advance_commitsTo fun _ => rfl
  | st a b =>
    refine withRegs_commitsTo fun ra _ ha _ => advance_commitsTo fun _ => State.write_read_other s _ ?_
    simpa [storedAddresses, namedRegs_of_names ha] using h
  | prn a => exact withReg_commitsTo fun _ _ => advance_commitsTo fun _ => rfl
  | pra a => exact withReg_commitsTo fun _ _ => advance_commitsTo fun _ => rfl
  | push a =>
    exact withReg_commitsTo fun r _ => advance_commitsTo fun _ => pushReg_read_other s r (List.ne_of_not_mem_cons h)
  | pop a => exact withReg_commitsTo fun _ _ => advance_commitsTo fun _ => rfl
  | call a =>
    exact withReg_commitsTo fun _ _ => withReturnAddress_commitsTo fun ret =>
      next_commitsTo (State.pushVal_read_other s ret (List.ne_of_not_mem_cons h))
  | ret => exact next_commitsTo rfl
  | int a => exact withReg_commitsTo fun _ _ => enterInterrupt_commitsTo fun ret _ => pushFrame_read_other s ret h
  | iret => exact fun t ht => .inr (returnFromInterrupt_read ht addr)
  | jmp a => exact jumpWhen_commitsTo fun _ => rfl
  | jeq a => exact jumpWhen_commitsTo fun _ => rfl
  | jne a => exact jumpWhen_commitsTo fun _ => rfl
  | jgt a => exact jumpWhen_commitsTo fun _ => rfl
  | jlt a => exact jumpWhen_commitsTo fun _ => rfl
  | add a b => exact aluBinary_commitsTo fun _ _ _ => rfl
  | sub a b => exact aluBinary_commitsTo fun _ _ _ => rfl
  | mul a b => exact aluBinary_commitsTo fun _ _ _ => rfl
  | div a b => exact aluDivision_commitsTo fun _ _ _ => rfl
  | mod a b => exact aluDivision_commitsTo fun _ _ _ => rfl
  | inc a => exact aluUnary_commitsTo fun _ _ _ => rfl
  | dec a => exact aluUnary_commitsTo fun _ _ _ => rfl
  | cmp a b => exact withRegs_commitsTo fun _ _ _ _ => advance_commitsTo fun _ => rfl
  | and a b => exact aluBinary_commitsTo fun _ _ _ => rfl
  | or a b => exact aluBinary_commitsTo fun _ _ _ => rfl
  | xor a b => exact aluBinary_commitsTo fun _ _ _ => rfl
  | not a => exact aluUnary_commitsTo fun _ _ _ => rfl
  | hlt => exact next_commitsTo rfl

/-! ### Storing an instruction and fetching it -/

/-- An instruction's encoding at the head of the bytes decodes to it (R60, R64). -/
theorem decodeFrom_encode (i : Instr) (rest : List Byte) :
    decodeFrom (opcodeByte i) (operandBytes i ++ rest) = .ok (i, rest) := by
  obtain ⟨row, hrow, -, -, -, hform⟩ := Laws.Rows.all i
  simp only [decodeFrom, hrow]
  generalize operandBytes i = operands at hform ⊢
  split at hform
  · next h =>
    subst hform
    simp only [h, List.nil_append]
  · next h =>
    subst hform
    simp only [h, List.cons_append, List.nil_append]
  · next h =>
    subst hform
    simp only [h, List.cons_append, List.nil_append]
  · exact hform.elim

/-- An instruction without operands is fetched wherever its opcode byte stands, at 0xFF too. -/
theorem fetch_of_opcode {s : State} {i : Instr} (hop : s.read s.pc = opcodeByte i) (hnone : operandBytes i = []) :
    fetch s = .ok i := by
  have hdec := decodeFrom_encode i s.operandWindow
  rw [hnone, List.nil_append] at hdec
  rw [fetch, hop, hdec]

theorem step_of_fetch_ok {s : State} {i : Instr} (hs : s.status = .running) (hfetch : fetch s = .ok i) :
    step s = exec i s := by
  rw [step_running hs, hfetch]

/-- ST completes with its byte stored and the pc at the next instruction (R102). -/
theorem exec_st_next {s : State} {a b : Byte} {ra rb : RegIdx} (ha : Names a ra) (hb : Names b rb) (hfits : Fits 3 s) :
    exec (.st a b) s = .next ((s.write (s.reg ra) (s.reg rb)).setPc (s.pc + 3)) := by
  have hlen : lengthOf (opcodeByte (.st a b)) = 3 := by simp [lengthOf, countField, opcodeByte]
  rw [exec, execSt, withRegs_of_named ha hb, advance_next s _ hlen hfits]
  rfl

/-! ### The statements of 20_memory.md -/

/-- Settles O17: a fault changes no byte, and what commits changes only the bytes its instruction stores. -/
theorem memoryOutsideStoredBytesIsKept : Obligations.MemoryOutsideStoredBytesIsKept := by
  intro i s t addr h haddr
  rcases exec_keepsByte i s haddr t h with ⟨r, ⟨⟩⟩ | ht
  · rfl
  · exact ht

/-- Settles O24, by the laws of a read after a write and of the canonical form. -/
theorem memoryWriteChangesOneByte : Obligations.MemoryWriteChangesOneByte := fun s addr v hm =>
  ⟨State.write_read_same hm addr v, fun _ hb => State.write_read_other s v hb, State.write_wf hm addr v, rfl⟩

/-- Settles O25: after ST the pc is at the byte it stored, which alone is the whole instruction `i`. -/
theorem nextFetchSeesStoredByte : Obligations.NextFetchSeesStoredByte := by
  intro s a b ra rb i hm hs ha hb hfits haddr hop hnone
  refine ⟨_, exec_st_next ha hb hfits, ?_⟩
  rw [haddr, hop]
  exact step_of_fetch_ok hs (fetch_of_opcode (State.write_read_same hm _ _) hnone)

end Sys2Proof.Proofs

/-! # Encoding (30_encoding.md) -/

namespace Sys2Proof.Proofs

open Sys2Proof Sys2Proof.Machine Sys2Proof.Claims

/-! ### The opcode byte and its fields -/

theorem lengthOf_opcodeByte (i : Instr) : lengthOf (opcodeByte i) = (operandBytes i).length + 1 := by
  obtain ⟨-, -, -, -, hlen, -⟩ := Laws.Rows.all i
  exact hlen

/-- The count field is the number of operand bytes (R63). -/
theorem countField_opcodeByte (i : Instr) : countField (opcodeByte i) = (operandBytes i).length :=
  Nat.succ.inj (lengthOf_opcodeByte i)

theorem aluField_opcodeByte (i : Instr) : aluField (opcodeByte i) = isAluOperation i := by
  cases i <;> simp [aluField, opcodeByte, isAluOperation]

theorem setsFlagsField_opcodeByte (i : Instr) : setsFlagsField (opcodeByte i) = writesFlags i := by
  cases i <;> simp [setsFlagsField, opcodeByte, writesFlags]

theorem operandBytes_length_le_two (i : Instr) : (operandBytes i).length ≤ 2 := by
  cases i <;> simp [operandBytes]

/-- A byte is its bits 7-4 and its id. -/
theorem eq_of_class_eq_of_id_eq {x y : Byte} (hhigh : x.extractLsb' 4 4 = y.extractLsb' 4 4)
    (hlow : idField x = idField y) : x = y := by
  have hhigh' := congrArg BitVec.toNat hhigh
  simp only [idField, BitVec.extractLsb'_toNat, Nat.shiftRight_eq_div_pow] at hhigh' hlow
  bv_omega

/-! ### The bytes that have a row -/

/-- No two rows of the map have the same opcode byte. -/
theorem opcodes_nodup : (opcodeMap.map Row.opcode).Nodup := by decide

theorem classify_isSome {op : Byte} : (classify op).isSome = true ↔ op ∈ opcodeMap.map Row.opcode := by
  rw [classify, Option.isSome_map, findRow, List.find?_isSome]
  simp

/-- The values that have a row are the map's opcode bytes, each of them once. -/
theorem assigned_perm :
    ((List.range 256).filter fun n => (classify (BitVec.ofNat 8 n)).isSome).Perm
      ((opcodeMap.map Row.opcode).map BitVec.toNat) := by
  refine (List.perm_ext_iff_of_nodup (List.nodup_range.filter _)
    (opcodes_nodup.map fun _ _ => BitVec.eq_of_toNat_eq)).2 fun n => ?_
  rw [List.mem_filter, List.mem_range, classify_isSome, List.mem_map (f := BitVec.toNat)]
  constructor
  · rintro ⟨hn, hop⟩
    exact ⟨_, hop, Nat.mod_eq_of_lt hn⟩
  · rintro ⟨op, hop, rfl⟩
    rw [BitVec.ofNat_toNat, BitVec.setWidth_eq]
    exact ⟨op.isLt, hop⟩

theorem length_filter_isNone {α β : Type} {f : α → Option β} {l : List α} {m n : Nat}
    (hl : l.length = m + n) (hsome : (l.filter fun x => (f x).isSome).length = m) :
    (l.filter fun x => (f x).isNone).length = n := by
  have hsplit := l.length_eq_length_filter_add fun x => (f x).isSome
  simp only [Option.not_isSome] at hsplit
  omega

/-- 227 of the 256 values are left by the map's 29 distinct bytes (R72). -/
theorem unassigned_length :
    ((List.range 256).filter fun n => (classify (BitVec.ofNat 8 n)).isNone).length = 227 := by
  have hassigned := assigned_perm.length_eq
  rw [List.length_map, List.length_map] at hassigned
  exact length_filter_isNone (m := 29) List.length_range hassigned

theorem countField_le_two_of_mem : ∀ r ∈ opcodeMap, countField r.opcode ≤ 2 := by decide

theorem countField_le_two {op : Byte} (h : classify op ≠ none) : countField op ≤ 2 := by
  obtain ⟨row, hmem, rfl⟩ := List.mem_map.1 (classify_isSome.1 (Option.isSome_iff_ne_none.2 h))
  exact countField_le_two_of_mem row hmem

theorem operandCount_of_classify {op : Byte} {d : Descriptor} (h : classify op = some d) :
    d.operandCount = countField op := by
  obtain ⟨row, -, rfl⟩ := Option.map_eq_some_iff.1 h
  rfl

/-! ### Bytes that do not decode -/

/-- A byte with no row is refused, whatever follows it (R84). -/
theorem decodeFrom_of_classify_none {op : Byte} (h : classify op = none) (rest : List Byte) :
    decodeFrom op rest = .error (.noInstruction op) := by
  simp only [decodeFrom, classify_eq_none.1 h]

/-- At an opcode byte of the map, bytes that are fewer than its operands are reported as they are (R81). -/
theorem decodeFrom_of_short {op : Byte} {rest : List Byte} (hop : classify op ≠ none)
    (hshort : rest.length < countField op) : decodeFrom op rest = .error (.missingOperand op rest) := by
  cases h : decodeFrom op rest with
  | ok result =>
    obtain ⟨rfl, rfl⟩ := encode_of_decodeFrom_ok (i := result.1) (left := result.2) h
    rw [countField_opcodeByte, List.length_append] at hshort
    omega
  | error e =>
    cases e with
    | noBytes => exact absurd h (decodeFrom_ne_noBytes op rest)
    | noInstruction op' => exact absurd (classify_eq_none_of_decodeFrom h).2 hop
    | missingOperand op' got =>
      obtain ⟨rfl, rfl, -⟩ := got_of_decodeFrom_missing h
      rfl

/-! ### Fetching -/

theorem step_of_fetch_error {s : State} {f : FaultRecord} (hs : s.status = .running) (hfetch : fetch s = .error f) :
    step s = .next (s.takeFault f) := by
  rw [step_running hs, hfetch]

/-- An instruction whose bytes stand at the pc is fetched: the window begins with its operand bytes (R80). -/
theorem fetch_of_standsAtPc {s : State} {i : Instr} (hi : StandsAtPc s i) : fetch s = .ok i := by
  obtain ⟨hop, hops, hin⟩ := hi
  have hlen := operandBytes_length_le_two i
  obtain ⟨n, hn⟩ : ∃ n, min 2 (255 - s.pc.toNat) = (operandBytes i).length + n := Nat.exists_eq_add_of_le (by omega)
  have hwindow : ∃ left, s.operandWindow = operandBytes i ++ left := by
    rw [operandWindow_eq, hn, ← List.range'_append_1, List.map_append, ← hops]
    exact ⟨_, rfl⟩
  obtain ⟨left, hleft⟩ := hwindow
  rw [fetch, ← hop, hleft, decodeFrom_encode]

/-- Bytes read one by one at consecutive addresses are the bytes in a list. -/
theorem map_read_range' {m : Memory} {n : Nat} {bytes : List Byte}
    (h : ∀ k (hk : k < bytes.length), m.read (n + k) = bytes[k]) : bytes = (List.range' n bytes.length).map m.read :=
  List.ext_getElem (by simp) fun k hk _ => by simp [h k hk]

/-! ### Register operands above 7 -/

/-- `x` is the first of the register operand bytes that names no register (R66). -/
abbrev FirstBad (operands : List Byte) (x : Byte) : Prop := operands.find? (fun y => 8 ≤ y.toNat) = some x

section
variable {i : Instr} {s : State} {a b x : Byte}

theorem withReg_of_firstBad {k : RegIdx → Result} (h : FirstBad [a] x) :
    withReg i s a k = raise i s (.regIndex x) := by
  obtain rfl : a = x := List.mem_singleton.1 (List.mem_of_find?_eq_some h) ▸ rfl
  exact withReg_of_bad (by simpa using List.find?_some h)

/-- Of two register operands the bad one is a, or b where a names a register. -/
theorem withRegs_of_firstBad {k : RegIdx → RegIdx → Result} (h : FirstBad [a, b] x) :
    withRegs i s a b k = raise i s (.regIndex x) := by
  by_cases ha : 8 ≤ a.toNat
  · obtain rfl : a = x := by simpa [FirstBad, ha] using h
    exact withReg_of_bad ha
  · have hb : FirstBad [b] x := by simpa [FirstBad, List.find?_cons, ha] using h
    rw [withRegs, withReg_of_named (r := ⟨a.toNat, Nat.not_le.1 ha⟩) rfl]
    exact withReg_of_firstBad hb

theorem aluBinary_of_firstBad {f : Byte → Byte → Byte} (h : FirstBad [a, b] x) :
    aluBinary i f a b s = raise i s (.regIndex x) :=
  withRegs_of_firstBad h

theorem aluUnary_of_firstBad {f : Byte → Byte} (h : FirstBad [a] x) :
    aluUnary i f a s = raise i s (.regIndex x) :=
  withReg_of_firstBad h

theorem aluDivision_of_firstBad {f : Byte → Byte → Byte} (h : FirstBad [a, b] x) :
    aluDivision i f a b s = raise i s (.regIndex x) :=
  withRegs_of_firstBad h

theorem jumpWhen_of_firstBad {taken : Bool} (h : FirstBad [a] x) :
    jumpWhen i taken a s = raise i s (.regIndex x) :=
  withReg_of_firstBad h

end

/-- The operand check is the first of every execution, whatever else would fail (R66, R207). -/
theorem exec_of_firstBad {i : Instr} {s : State} {x : Byte} (h : FirstBad i.regOperands x) :
    exec i s = raise i s (.regIndex x) := by
  unfold exec
  cases i with
  | ldi a imm => exact withReg_of_firstBad h
  | ld a b => exact withRegs_of_firstBad h
  | st a b => exact withRegs_of_firstBad h
  | prn a => exact withReg_of_firstBad h
  | pra a => exact withReg_of_firstBad h
  | push a => exact withReg_of_firstBad h
  | pop a => exact withReg_of_firstBad h
  | call a => exact withReg_of_firstBad h
  | ret => cases h
  | int a => exact withReg_of_firstBad h
  | iret => cases h
  | jmp a => exact jumpWhen_of_firstBad h
  | jeq a => exact jumpWhen_of_firstBad h
  | jne a => exact jumpWhen_of_firstBad h
  | jgt a => exact jumpWhen_of_firstBad h
  | jlt a => exact jumpWhen_of_firstBad h
  | add a b => exact aluBinary_of_firstBad h
  | sub a b => exact aluBinary_of_firstBad h
  | mul a b => exact aluBinary_of_firstBad h
  | div a b => exact aluDivision_of_firstBad h
  | mod a b => exact aluDivision_of_firstBad h
  | inc a => exact aluUnary_of_firstBad h
  | dec a => exact aluUnary_of_firstBad h
  | cmp a b => exact withRegs_of_firstBad h
  | and a b => exact aluBinary_of_firstBad h
  | or a b => exact aluBinary_of_firstBad h
  | xor a b => exact aluBinary_of_firstBad h
  | not a => exact aluUnary_of_firstBad h
  | hlt => cases h

/-! ### Executions that end by the generic advancement -/

/-- The result is the generic advancement of `i` with a working copy that keeps the status and the record. -/
def Advances (i : Instr) (s : State) (result : Result) : Prop := ∃ w, Keeps s w ∧ result = advance i s w

section
variable {i : Instr} {s : State} {a b : Byte}

theorem withReg_advances {k : RegIdx → Result} (hi : i.wf = true) (ha : a ∈ i.regOperands)
    (hk : ∀ r, Names a r → Advances i s (k r)) : Advances i s (withReg i s a k) := by
  rw [withReg_of_named (r := ⟨a.toNat, wf_iff.1 hi a ha⟩) rfl]
  exact hk _ rfl

theorem withRegs_advances {k : RegIdx → RegIdx → Result} (hi : i.wf = true) (hops : i.regOperands = [a, b])
    (hk : ∀ ra rb, Names b rb → Advances i s (k ra rb)) : Advances i s (withRegs i s a b k) :=
  withReg_advances hi (by simp [hops]) fun ra _ => withReg_advances hi (by simp [hops]) fun rb hb => hk ra rb hb

theorem aluBinary_advances {f : Byte → Byte → Byte} (hi : i.wf = true) (hops : i.regOperands = [a, b]) :
    Advances i s (aluBinary i f a b s) :=
  withRegs_advances hi hops fun ra _ _ => ⟨_, keeps_setReg s ra _, rfl⟩

theorem aluUnary_advances {f : Byte → Byte} (hi : i.wf = true) (ha : a ∈ i.regOperands) :
    Advances i s (aluUnary i f a s) :=
  withReg_advances hi ha fun r _ => ⟨_, keeps_setReg s r _, rfl⟩

theorem aluDivision_advances {f : Byte → Byte → Byte} (hi : i.wf = true) (hops : i.regOperands = [a, b])
    (hdivisor : ∀ r, Names b r → s.reg r ≠ 0#8) : Advances i s (aluDivision i f a b s) :=
  withRegs_advances hi hops fun ra rb hb => ⟨_, keeps_setReg s ra _, if_neg (hdivisor rb hb)⟩

theorem jumpWhen_advances {taken : Bool} (hi : i.wf = true) (ha : a ∈ i.regOperands) (hnot : taken = false) :
    Advances i s (jumpWhen i taken a s) := by
  subst hnot
  exact withReg_advances hi ha fun _ _ => ⟨s, Keeps.refl s, rfl⟩

end

/-- An execution that passes its checks and assigns no pc ends by the generic advancement (R82, R83). -/
theorem exec_advances {i : Instr} {s : State} (h : GenericallyAdvances i s) : Advances i s (exec i s) := by
  obtain ⟨hi, h⟩ := h
  unfold exec
  cases i with
  | ldi a imm => exact withReg_advances hi (List.mem_singleton_self a) fun r _ => ⟨_, keeps_setReg s r _, rfl⟩
  | ld a b => exact withRegs_advances hi rfl fun ra _ _ => ⟨_, keeps_setReg s ra _, rfl⟩
  | st a b => exact withRegs_advances hi rfl fun _ _ _ => ⟨_, keeps_write s _ _, rfl⟩
  | prn a => exact withReg_advances hi (List.mem_singleton_self a) fun _ _ => ⟨_, keeps_emit s _, rfl⟩
  | pra a => exact withReg_advances hi (List.mem_singleton_self a) fun _ _ => ⟨_, keeps_emit s _, rfl⟩
  | push a => exact withReg_advances hi (List.mem_singleton_self a) fun r _ => ⟨_, keeps_pushReg s r, rfl⟩
  | pop a => exact withReg_advances hi (List.mem_singleton_self a) fun r _ => ⟨_, keeps_popReg s r, rfl⟩
  | call a => exact h.elim
  | ret => exact h.elim
  | int a => exact h.elim
  | iret => exact h.elim
  | jmp a => exact h.elim
  | jeq a => exact jumpWhen_advances hi (List.mem_singleton_self a) h
  | jne a => exact jumpWhen_advances hi (List.mem_singleton_self a) (by rw [h, Bool.not_true])
  | jgt a => exact jumpWhen_advances hi (List.mem_singleton_self a) h
  | jlt a => exact jumpWhen_advances hi (List.mem_singleton_self a) h
  | add a b => exact aluBinary_advances hi rfl
  | sub a b => exact aluBinary_advances hi rfl
  | mul a b => exact aluBinary_advances hi rfl
  | div a b => exact aluDivision_advances hi rfl h
  | mod a b => exact aluDivision_advances hi rfl h
  | inc a => exact aluUnary_advances hi (List.mem_singleton_self a)
  | dec a => exact aluUnary_advances hi (List.mem_singleton_self a)
  | cmp a b => exact withRegs_advances hi rfl fun _ _ _ => ⟨_, keeps_setFlags s _, rfl⟩
  | and a b => exact aluBinary_advances hi rfl
  | or a b => exact aluBinary_advances hi rfl
  | xor a b => exact aluBinary_advances hi rfl
  | not a => exact aluUnary_advances hi (List.mem_singleton_self a)
  | hlt => exact h.elim

/-! ### Registers that are kept -/

section
variable {i : Instr} {s w : State} {a b : Byte} {q r : RegIdx}

/-- A register the operand does not name is another than the one it names. -/
theorem reg_setReg_of_not_named (hr : Names a r) (hq : q ∉ namedRegs a) (v : Byte) :
    (s.setReg r v).reg q = s.reg q := by
  rw [namedRegs_of_names hr, List.mem_singleton] at hq
  exact State.setReg_reg_other s v hq

theorem aluBinary_keepsReg {f : Byte → Byte → Byte} (hq : q ∉ namedRegs a) :
    CommitsTo i s (fun t => t.reg q = s.reg q) (aluBinary i f a b s) :=
  withRegs_commitsTo fun _ _ ha _ => advance_commitsTo fun _ => reg_setReg_of_not_named ha hq _

theorem aluUnary_keepsReg {f : Byte → Byte} (hq : q ∉ namedRegs a) :
    CommitsTo i s (fun t => t.reg q = s.reg q) (aluUnary i f a s) :=
  withReg_commitsTo fun _ ha => advance_commitsTo fun _ => reg_setReg_of_not_named ha hq _

theorem aluDivision_keepsReg {f : Byte → Byte → Byte} (hq : q ∉ namedRegs a) :
    CommitsTo i s (fun t => t.reg q = s.reg q) (aluDivision i f a b s) := by
  refine withRegs_commitsTo fun _ _ ha _ => ?_
  split
  · exact raise_commitsTo _
  · exact advance_commitsTo fun _ => reg_setReg_of_not_named ha hq _

theorem pushVal_reg_other (v : Byte) (hq : q ≠ SP) : (s.pushVal v).reg q = s.reg q := by
  rw [State.pushVal_reg, if_neg hq]

theorem pushReg_reg_other (r : RegIdx) (hq : q ≠ SP) : (s.pushReg r).reg q = s.reg q := by
  rw [State.pushReg_reg, if_neg hq]

theorem popReg_reg_other (hq : q ≠ SP) (hr : q ≠ r) : (s.popReg r).reg q = s.reg q := by
  rw [State.popReg, State.setReg_reg_other _ _ hq, State.setReg_reg_other _ _ hr]

end

/-- An execution that commits leaves every register alone that its instruction does not write. -/
theorem exec_keepsReg (i : Instr) (s : State) {q : RegIdx} (hq : q ∉ writtenRegs i) :
    CommitsTo i s (fun t => t.reg q = s.reg q) (exec i s) := by
  unfold exec
  cases i with
  | ldi a imm =>
    exact withReg_commitsTo fun _ ha => advance_commitsTo fun _ => reg_setReg_of_not_named ha hq imm
  | ld a b =>
    exact withRegs_commitsTo fun _ _ ha _ => advance_commitsTo fun _ => reg_setReg_of_not_named ha hq _
  | st a b => exact withRegs_commitsTo fun _ _ _ _ => advance_commitsTo fun _ => rfl
  | prn a => exact withReg_commitsTo fun _ _ => advance_commitsTo fun _ => rfl
  | pra a => exact withReg_commitsTo fun _ _ => advance_commitsTo fun _ => rfl
  | push a =>
    exact withReg_commitsTo fun r _ => advance_commitsTo fun _ => pushReg_reg_other r (List.ne_of_not_mem_cons hq)
  | pop a =>
    refine withReg_commitsTo fun r ha => advance_commitsTo fun _ => ?_
    rw [writtenRegs, namedRegs_of_names ha] at hq
    exact popReg_reg_other (List.ne_of_not_mem_cons hq) (List.ne_of_not_mem_cons (List.not_mem_of_not_mem_cons hq))
  | call a =>
    exact withReg_commitsTo fun _ _ => withReturnAddress_commitsTo fun ret =>
      next_commitsTo (pushVal_reg_other ret (List.ne_of_not_mem_cons hq))
  | ret => exact next_commitsTo (State.setReg_reg_other s _ (List.ne_of_not_mem_cons hq))
  | int a =>
    refine withReg_commitsTo fun _ _ => enterInterrupt_commitsTo fun ret _ => ?_
    obtain ⟨-, -, -, -, -, hother, -⟩ := State.pushFrame_fields s ret
    exact hother q (List.ne_of_not_mem_cons hq)
  | iret =>
    have hall : ∀ r : RegIdx, r ∈ writtenRegs .iret := by decide
    exact absurd (hall q) hq
  | jmp a => exact jumpWhen_commitsTo fun _ => rfl
  | jeq a => exact jumpWhen_commitsTo fun _ => rfl
  | jne a => exact jumpWhen_commitsTo fun _ => rfl
  | jgt a => exact jumpWhen_commitsTo fun _ => rfl
  | jlt a => exact jumpWhen_commitsTo fun _ => rfl
  | add a b => exact aluBinary_keepsReg hq
  | sub a b => exact aluBinary_keepsReg hq
  | mul a b => exact aluBinary_keepsReg hq
  | div a b => exact aluDivision_keepsReg hq
  | mod a b => exact aluDivision_keepsReg hq
  | inc a => exact aluUnary_keepsReg hq
  | dec a => exact aluUnary_keepsReg hq
  | cmp a b => exact withRegs_commitsTo fun _ _ _ _ => advance_commitsTo fun _ => rfl
  | and a b => exact aluBinary_keepsReg hq
  | or a b => exact aluBinary_keepsReg hq
  | xor a b => exact aluBinary_keepsReg hq
  | not a => exact aluUnary_keepsReg hq
  | hlt => exact next_commitsTo rfl

/-! ### Words of assembly text -/

/-- The characters that end a word of assembly text. -/
abbrev IsSeparator (c : Char) : Prop := c = ' ' ∨ c = ','

/-- Characters that are read as one word: some, and no separator among them. -/
structure IsWord (cs : List Char) : Prop where
  nonempty : cs ≠ []
  letters : ∀ c ∈ cs, ¬ IsSeparator c

/-- Characters that are no separators are taken into the word being read. -/
theorem splitWords_append {cs : List Char} (h : ∀ c ∈ cs, ¬ IsSeparator c) (word rest : List Char) :
    splitWords word (cs ++ rest) = splitWords (word ++ cs) rest := by
  induction cs generalizing word with
  | nil => rw [List.nil_append, List.append_nil]
  | cons c cs ih =>
    obtain ⟨hc, hcs⟩ := List.forall_mem_cons.1 h
    rw [List.cons_append, splitWords, if_neg (by simpa using hc), ih hcs, List.append_assoc, List.singleton_append]

/-- A separator ends the word being read, if there is one. -/
theorem splitWords_separator {c : Char} (hc : IsSeparator c) (word rest : List Char) :
    splitWords word (c :: rest) = if word = [] then splitWords [] rest else word :: splitWords [] rest := by
  rw [splitWords, if_pos (by simpa using hc)]

/-- A word at the end of the text. -/
theorem splitWords_word {w : List Char} (h : IsWord w) : splitWords [] w = [w] := by
  have happend := splitWords_append h.letters [] []
  rw [List.append_nil, List.nil_append] at happend
  rw [happend]
  cases w with
  | nil => exact absurd rfl h.nonempty
  | cons c cs => rfl

/-- A word with a separator after it. -/
theorem splitWords_word_separator {w : List Char} (h : IsWord w) {c : Char} (hc : IsSeparator c) (rest : List Char) :
    splitWords [] (w ++ c :: rest) = w :: splitWords [] rest := by
  rw [splitWords_append h.letters, List.nil_append, splitWords_separator hc, if_neg h.nonempty]

theorem letters_isWord (m : Mnemonic) : IsWord (Mnemonic.letters m) := by
  constructor
  · cases m <;> exact List.cons_ne_nil _ _
  · cases m <;> simp [Mnemonic.letters]

/-- No two rows of the map have the same letters. -/
theorem rowLetters_nodup : (opcodeMap.map fun r => Mnemonic.letters r.mnemonic).Nodup := by decide

/-- A row is found by its letters. -/
theorem find_rowLetters {row : Row} (hrow : row ∈ opcodeMap) :
    (opcodeMap.find? fun r => Mnemonic.letters r.mnemonic == Mnemonic.letters row.mnemonic) = some row := by
  cases hfind : opcodeMap.find? fun r => Mnemonic.letters r.mnemonic == Mnemonic.letters row.mnemonic with
  | none => simpa using List.find?_eq_none.1 hfind row hrow
  | some q =>
    have hletters : Mnemonic.letters q.mnemonic = Mnemonic.letters row.mnemonic := by simpa using List.find?_some hfind
    rw [List.inj_on_of_nodup_map rowLetters_nodup (List.mem_of_find?_eq_some hfind) hrow hletters]

/-! ### Digits -/

theorem toNat_digit {d : Nat} (hd : d < 10) : (Char.ofNat (48 + d)).toNat = 48 + d := by
  interval_cases d <;> rfl

/-- The character of a decimal digit is read in every base it belongs to. -/
theorem digitValue_digit {base d : Nat} (hd : d < base) (hten : d < 10) :
    digitValue base (Char.ofNat (48 + d)) = some d := by
  have hle : 48 + d ≤ 57 := by omega
  simp [digitValue, toNat_digit hten, hle, hd]

theorem digitsValue_decimalDigits (b : Byte) : digitsValue 10 (decimalDigits b) = some b.toNat := by
  have hb := b.isLt
  have digit {d : Nat} (hd : d < 10) := digitValue_digit hd hd
  have hones : b.toNat % 10 < 10 := Nat.mod_lt _ (by decide)
  simp only [decimalDigits]
  split
  · next hone => simp [digitsValue, digit hone]
  · split
    · have htens : b.toNat / 10 < 10 := by omega
      have hvalue : b.toNat / 10 * 10 + b.toNat % 10 = b.toNat := by omega
      simpa [digitsValue, digit htens, digit hones] using hvalue
    · have hhundreds : b.toNat / 100 < 10 := by omega
      have htens : b.toNat / 10 % 10 < 10 := Nat.mod_lt _ (by decide)
      have hvalue : (b.toNat / 100 * 10 + b.toNat / 10 % 10) * 10 + b.toNat % 10 = b.toNat := by omega
      simpa [digitsValue, digit hhundreds, digit htens, digit hones] using hvalue

/-- Every character that shows a byte is a decimal digit. -/
theorem decimalDigits_range (b : Byte) : ∀ c ∈ decimalDigits b, 48 ≤ c.toNat ∧ c.toNat ≤ 57 := by
  have hb := b.isLt
  have digit {d : Nat} (hd : d < 10) : 48 ≤ (Char.ofNat (48 + d)).toNat ∧ (Char.ofNat (48 + d)).toNat ≤ 57 := by
    rw [toNat_digit hd]
    omega
  have hones := digit (Nat.mod_lt b.toNat (by decide))
  simp only [decimalDigits]
  split
  · next hone => exact List.forall_mem_singleton.2 (digit hone)
  · split
    · have htens := digit (d := b.toNat / 10) (by omega)
      exact List.forall_mem_cons.2 ⟨htens, List.forall_mem_singleton.2 hones⟩
    · have hhundreds := digit (d := b.toNat / 100) (by omega)
      have htens := digit (Nat.mod_lt (b.toNat / 10) (by decide))
      exact List.forall_mem_cons.2 ⟨hhundreds, List.forall_mem_cons.2 ⟨htens, List.forall_mem_singleton.2 hones⟩⟩

theorem not_mem_decimalDigits (b : Byte) {c : Char} (hc : ¬(48 ≤ c.toNat ∧ c.toNat ≤ 57)) : c ∉ decimalDigits b :=
  fun h => hc (decimalDigits_range b c h)

theorem decimalDigits_isWord (b : Byte) : IsWord (decimalDigits b) := by
  constructor
  · intro hnil
    have hvalue := digitsValue_decimalDigits b
    rw [hnil] at hvalue
    cases hvalue
  · rintro c hc (rfl | rfl)
    · exact not_mem_decimalDigits b (by decide) hc
    · exact not_mem_decimalDigits b (by decide) hc

/-- A word of decimal digits does not begin with `0x` or `0b`. -/
theorem parseImmediate_decimalDigits (b : Byte) : parseImmediate (decimalDigits b) = some b := by
  have hvalue := digitsValue_decimalDigits b
  have hx := not_mem_decimalDigits b (c := 'x') (by decide)
  have hb := not_mem_decimalDigits b (c := 'b') (by decide)
  generalize decimalDigits b = word at *
  unfold parseImmediate
  split
  · simp at hx
  · simp at hb
  · have hle : b.toNat ≤ 255 := Nat.le_of_lt_succ b.isLt
    simp [hvalue, hle]

theorem parseRegister_decimalDigits {b : Byte} (hb : b.toNat < 8) :
    parseRegister ('R' :: decimalDigits b) = some b := by
  have hten : b.toNat < 10 := by omega
  simp [decimalDigits, hten, parseRegister, digitValue_digit hb hten]

/-! ### Operands -/

/-- The byte can be written as an operand of the kind: a register operand names a register, an immediate is any byte. -/
def Writable (k : OperandKind) (b : Byte) : Prop := k = .reg → b.toNat < 8

theorem operandText_isWord (k : OperandKind) (b : Byte) : IsWord (operandText k b) := by
  have hdigits := decimalDigits_isWord b
  cases k with
  | reg => exact ⟨List.cons_ne_nil _ _, List.forall_mem_cons.2 ⟨by decide, hdigits.letters⟩⟩
  | imm8 => exact hdigits

theorem parseOperand_operandText {k : OperandKind} {b : Byte} (h : Writable k b) :
    parseOperand k (operandText k b) = some b := by
  cases k with
  | reg => exact parseRegister_decimalDigits (h rfl)
  | imm8 => exact parseImmediate_decimalDigits b

theorem parseOperands_operandText {kinds : List OperandKind} {bytes : List Byte}
    (h : List.Forall₂ Writable kinds bytes) :
    parseOperands kinds (List.zipWith operandText kinds bytes) = some bytes := by
  induction h with
  | nil => rfl
  | cons hb _ ih => simp [parseOperands, parseOperand_operandText hb, ih]

/-- The register operands are the operand bytes of kind `reg` (R65, R68). -/
theorem regOperands_eq {i : Instr} {row : Row} (hrow : findRow (opcodeByte i) = some row) :
    i.regOperands = ((row.kinds.zip (operandBytes i)).filter (·.1 = .reg)).map (·.2) := by
  cases i <;> cases hrow <;> rfl

/-- A well-formed instruction's operand bytes can be written as operands of their kinds (R66). -/
theorem operands_writable {i : Instr} {row : Row} (hi : i.wf = true) (hrow : findRow (opcodeByte i) = some row)
    (hlen : row.kinds.length = (operandBytes i).length) : List.Forall₂ Writable row.kinds (operandBytes i) := by
  refine List.forall₂_iff_zip.2 ⟨hlen, fun {k b} hmem hk => wf_iff.1 hi b ?_⟩
  rw [regOperands_eq hrow]
  exact List.mem_map.2 ⟨(k, b), by simpa [hk] using hmem, rfl⟩

/-- The text of an instruction splits into its mnemonic and its operands. -/
theorem splitWords_text (m : Mnemonic) {kinds : List OperandKind} {bytes : List Byte}
    (hlen : kinds.length = bytes.length) (htwo : bytes.length ≤ 2) :
    splitWords [] (Mnemonic.letters m ++ operandsText kinds bytes) =
      Mnemonic.letters m :: List.zipWith operandText kinds bytes := by
  have hname := letters_isWord m
  match kinds, bytes, hlen with
  | [], [], _ => simpa [operandsText] using splitWords_word hname
  | [k], [b], _ =>
    rw [operandsText, splitWords_word_separator hname (.inl rfl), splitWords_word (operandText_isWord k b)]
    rfl
  | [k, k'], [b, b'], _ =>
    have hspace : splitWords [] (' ' :: operandText k' b') = [operandText k' b'] := by
      rw [splitWords_separator (.inl rfl), if_pos rfl, splitWords_word (operandText_isWord k' b')]
    simp only [operandsText, List.append_assoc, List.cons_append, List.nil_append]
    rw [splitWords_word_separator hname (.inl rfl), splitWords_word_separator (operandText_isWord k b) (.inr rfl),
      hspace]
    rfl
  | _ :: _ :: _ :: _, _ :: _ :: _ :: _, _ => simp at htwo

/-! ### The statements of 30_encoding.md -/

/-- Settles O20: what decodes has its encoding at the head of the bytes, and an encoding at the head decodes. -/
theorem decodeExactlyInvertsEncode : Obligations.DecodeExactlyInvertsEncode := by
  intro bytes rest i
  constructor
  · intro h
    cases bytes with
    | nil => cases h
    | cons op bytes =>
      obtain ⟨rfl, rfl⟩ := encode_of_decodeFrom_ok h
      rfl
  · rintro rfl
    exact decodeFrom_encode i rest

/-- Settles O10: the operand check comes first, and it raises REG_INDEX with the byte. -/
theorem badRegisterOperandFaults : Obligations.BadRegisterOperandFaults := by
  intro i s b h
  rw [exec_of_firstBad h]
  rfl

/-- Settles O11: the execution is the advancement of a working copy that keeps status and record. -/
theorem genericAdvanceMovesOnOrFaults : Obligations.GenericAdvanceMovesOnOrFaults := by
  intro i s h
  obtain ⟨w, hw, hexec⟩ := exec_advances h
  rw [hexec]
  refine ⟨fun hfits => ⟨_, advance_next s w rfl hfits, ?_, hw.status, hw.fault⟩, fun hpast => ?_⟩
  · rw [State.setPc_pc, BitVec.toNat_add, BitVec.toNat_ofNat, lengthOf]
    omega
  · rw [advance_fault s w rfl hpast]
    rfl

/-- Settles O15: a fault changes no register, and what commits keeps the registers it does not write. -/
theorem registersOutsideDestinationsAreKept : Obligations.RegistersOutsideDestinationsAreKept := by
  intro i s t q h hq
  rcases exec_keepsReg i s hq t h with ⟨r, ⟨⟩⟩ | ht
  · rfl
  · exact ht

/-- Settles O52: the text splits into the mnemonic, which finds the row, and the operands, which read back. -/
theorem assemblyTextAssembles : Obligations.AssemblyTextAssembles := by
  intro i hi
  obtain ⟨row, hrow, hop, hlen, -⟩ := Laws.Rows.all i
  simp only [assemble, assemblyText, hrow, splitWords_text row.mnemonic hlen (operandBytes_length_le_two i),
    find_rowLetters (findRow_some hrow).1, parseOperands_operandText (operands_writable hi hrow hlen), hop]
  rfl

/-- Settles O6: the instruction whose bytes stand at the pc is the one fetched. -/
theorem stepRunsTheDecodedInstruction : Obligations.StepRunsTheDecodedInstruction := by
  intro s i hs hbytes
  obtain ⟨-, hop⟩ := hbytes 0 (Nat.succ_pos _)
  obtain ⟨hlast, -⟩ := hbytes (operandBytes i).length (Nat.lt_succ_self _)
  have hops : operandBytes i = (List.range' (s.pc.toNat + 1) (operandBytes i).length).map s.mem.read := by
    refine map_read_range' fun k hk => ?_
    obtain ⟨-, hk⟩ := hbytes (k + 1) (Nat.succ_lt_succ hk)
    rw [Nat.add_assoc, Nat.add_comm 1]
    exact hk
  exact step_of_fetch_ok hs (fetch_of_standsAtPc ⟨hop.symm, hops, Nat.lt_succ_of_le hlast⟩)

/-- Settles O7: both terminal statuses answer the state itself. -/
theorem terminalStatesDoNotStep : Obligations.TerminalStatesDoNotStep := by
  rintro s (hs | hs)
  · simp only [step, hs]
  · simp only [step, hs]

/-- Settles O8: the decoder refuses the byte before it looks at the window. -/
theorem illegalOpcodeTakesDecodeFault : Obligations.IllegalOpcodeTakesDecodeFault := by
  intro s hs hop
  refine step_of_fetch_error hs ?_
  rw [fetch, decodeFrom_of_classify_none hop]
  rfl

/-- Settles O9: the window holds the bytes memory still has, which are fewer than the opcode's operands. -/
theorem operandPastMemoryTakesFetchFault : Obligations.OperandPastMemoryTakesFetchFault := by
  intro s d hs hd hpast
  have hop : classify (s.read s.pc) ≠ none := by simp [hd]
  have htwo := countField_le_two hop
  rw [operandCount_of_classify hd] at hpast
  have hpc := s.pc.isLt
  have hmin : min 2 (255 - s.pc.toNat) = 255 - s.pc.toNat := by omega
  have hlength : s.operandWindow.length = 255 - s.pc.toNat := by rw [operandWindow_length, hmin]
  have hdetail : s.pc.toNat + (255 - s.pc.toNat) + 1 = 256 := by omega
  refine step_of_fetch_error hs ?_
  rw [fetch, decodeFrom_of_short hop (by omega)]
  simp only [fetchFault, hlength, hdetail]
  rw [operandWindow_eq, hmin]
  rfl

/-- Settles O21: the fields one by one; two rows of one class with one id would have the same opcode byte. -/
theorem opcodeFieldsFollowTheLayout : Obligations.OpcodeFieldsFollowTheLayout := by
  refine ⟨fun i => ⟨countField_opcodeByte i, aluField_opcodeByte i, setsFlagsField_opcodeByte i⟩, ?_⟩
  intro r hr q hq hne hclass hid
  exact hne (by rw [List.inj_on_of_nodup_map opcodes_nodup hr hq (eq_of_class_eq_of_id_eq hclass hid)])

/-- Settles O22: every byte with a row has a count of at most 2. -/
theorem unassignedOpcodesAreRefused : Obligations.UnassignedOpcodesAreRefused := by
  refine ⟨unassigned_length, fun op hthree => ?_, rfl, fun op rest h => decodeFrom_of_classify_none h rest⟩
  by_contra hsome
  have htwo := countField_le_two hsome
  omega

/-- Settles O23: each word is the encoding of its instruction. -/
theorem wordsOfTheSpecDecode : Obligations.WordsOfTheSpecDecode := by
  have decodes (i : Instr) : decode (encode i) = .ok (i, []) :=
    (decodeExactlyInvertsEncode _ _ i).2 (List.append_nil _).symm
  exact ⟨decodes (.ldi 0 8), decodes (.st 0 1), decodes (.prn 3), decodes (.pop 2), decodes (.call 1), decodes (.int 2),
    decodes .iret, decodes (.jne 3), decodes (.cmp 1 2), decodes (.not 0), decodes .hlt⟩

end Sys2Proof.Proofs

/-! # Data movement (40_data_movement.md) -/

namespace Sys2Proof.Proofs

open Sys2Proof Sys2Proof.Machine Sys2Proof.Claims

/-! ### What an execution that only advances commits -/

/-- With its operand naming a register and its successor inside memory, the execution commits its working copy. -/
theorem withReg_advance_next {i : Instr} {s : State} {a : Byte} {r : RegIdx} {n : Nat} (w : RegIdx → State)
    (ha : Names a r) (hlen : lengthOf (opcodeByte i) = n) (hfits : Fits n s) :
    withReg i s a (fun r => advance i s (w r)) = .next ((w r).setPc (s.pc + BitVec.ofNat 8 n)) := by
  rw [withReg_of_named ha, advance_next s _ hlen hfits]

/-- The same for two register operands, equal or not. -/
theorem withRegs_advance_next {i : Instr} {s : State} {a b : Byte} {ra rb : RegIdx} {n : Nat}
    (w : RegIdx → RegIdx → State) (ha : Names a ra) (hb : Names b rb) (hlen : lengthOf (opcodeByte i) = n)
    (hfits : Fits n s) :
    withRegs i s a b (fun ra rb => advance i s (w ra rb)) = .next ((w ra rb).setPc (s.pc + BitVec.ofNat 8 n)) := by
  rw [withRegs_of_named ha hb, advance_next s _ hlen hfits]

/-- LDI completes with the immediate in its register and the pc at the next instruction (R100). -/
theorem exec_ldi_next {s : State} {a : Byte} {r : RegIdx} (imm : Byte) (ha : Names a r) (hfits : Fits 3 s) :
    exec (.ldi a imm) s = .next ((s.setReg r imm).setPc (s.pc + 3)) :=
  withReg_advance_next (fun r => s.setReg r imm) ha (lengthOf_opcodeByte (.ldi a imm)) hfits

/-- LD completes with the byte it read in its register and the pc at the next instruction (R101). -/
theorem exec_ld_next {s : State} {a b : Byte} {ra rb : RegIdx} (ha : Names a ra) (hb : Names b rb) (hfits : Fits 3 s) :
    exec (.ld a b) s = .next ((s.setReg ra (s.read (s.reg rb))).setPc (s.pc + 3)) :=
  withRegs_advance_next (fun ra rb => s.setReg ra (s.read (s.reg rb))) ha hb (lengthOf_opcodeByte (.ld a b)) hfits

/-! ### The statements of 40_data_movement.md -/

/-- Settles O26: `setReg` and `setPc` change the two fields the statement names and no other. -/
theorem ldiLoadsImmediate : Obligations.LdiLoadsImmediate :=
  fun _ _ imm _ ha hfits => ⟨rfl, exec_ldi_next imm ha hfits⟩

/-- Settles O27: as for LDI, with the byte read at the address that the second register holds. -/
theorem ldLoadsFromRegisterAddress : Obligations.LdLoadsFromRegisterAddress :=
  fun _ _ _ _ _ ha hb hfits => ⟨rfl, exec_ld_next ha hb hfits⟩

/-- Settles O28: ST completes with its byte written, and every address reads by the law of a read after a write. -/
theorem stStoresToRegisterAddress : Obligations.StStoresToRegisterAddress := by
  intro s a b ra rb hm ha hb hfits
  refine ⟨rfl, _, exec_st_next ha hb hfits, rfl, fun addr => ?_⟩
  rw [State.setPc_read, State.write_read hm]

end Sys2Proof.Proofs

/-! # Output (41_output.md) -/

namespace Sys2Proof.Proofs

open Sys2Proof Sys2Proof.Machine Sys2Proof.Claims

/-! ### What PRN and PRA commit -/

/-- PRN completes with its event at the end of the trace and the pc at the next instruction (R111). -/
theorem exec_prn_next {s : State} {a : Byte} {r : RegIdx} (ha : Names a r) (hfits : Fits 2 s) :
    exec (.prn a) s = .next ((s.emit (.prn (s.reg r))).setPc (s.pc + 2)) :=
  withReg_advance_next (fun r => s.emit (.prn (s.reg r))) ha (lengthOf_opcodeByte (.prn a)) hfits

/-- PRA completes with its event at the end of the trace and the pc at the next instruction (R112). -/
theorem exec_pra_next {s : State} {a : Byte} {r : RegIdx} (ha : Names a r) (hfits : Fits 2 s) :
    exec (.pra a) s = .next ((s.emit (.pra (s.reg r))).setPc (s.pc + 2)) :=
  withReg_advance_next (fun r => s.emit (.pra (s.reg r))) ha (lengthOf_opcodeByte (.pra a)) hfits

/-! ### The value and the first of a byte's decimal digits -/

/-- The number that decimal digits show, read from the left after the number `n`. -/
def shownFrom (n : Nat) (cs : List Char) : Nat := cs.foldl (fun n c => 10 * n + (c.toNat - 48)) n

theorem digitValue_ten {c : Char} (hc : 48 ≤ c.toNat ∧ c.toNat ≤ 57) : digitValue 10 c = some (c.toNat - 48) := by
  have hlt : c.toNat - 48 < 10 := by omega
  simp [digitValue, hc, hlt]

/-- The assembler's reading of decimal digits never stops, and reads the number they show. -/
theorem foldl_digitValue_ten {cs : List Char} (h : ∀ c ∈ cs, 48 ≤ c.toNat ∧ c.toNat ≤ 57) (n : Nat) :
    cs.foldl (fun acc c => do return (← acc) * 10 + (← digitValue 10 c)) (some n) = some (shownFrom n cs) := by
  induction cs generalizing n with
  | nil => rfl
  | cons c cs ih =>
    obtain ⟨hc, hcs⟩ := List.forall_mem_cons.1 h
    simpa [digitValue_ten hc, shownFrom, Nat.mul_comm] using ih hcs (n * 10 + (c.toNat - 48))

theorem digitsValue_ten {cs : List Char} (hne : cs ≠ []) (h : ∀ c ∈ cs, 48 ≤ c.toNat ∧ c.toNat ≤ 57) :
    digitsValue 10 cs = some (shownFrom 0 cs) := by
  cases cs with
  | nil => exact absurd rfl hne
  | cons c cs => exact foldl_digitValue_ten h 0

/-- The device's digits show the byte, because the assembler reads the byte back from them. -/
theorem shownFrom_decimalDigits (b : Byte) : shownFrom 0 (decimalDigits b) = b.toNat :=
  Option.some.inj <| calc
    some (shownFrom 0 (decimalDigits b)) = digitsValue 10 (decimalDigits b) :=
      (digitsValue_ten (decimalDigits_isWord b).nonempty (decimalDigits_range b)).symm
    _ = some b.toNat := digitsValue_decimalDigits b

theorem eq_zero_of_digit_eq_zero {d : Nat} (hd : d < 10) (h : Char.ofNat (48 + d) = '0') : d = 0 := by
  have hcode : 48 + d = 48 := by rw [← toNat_digit hd, h]; rfl
  omega

/-- Two digits are shown only from 10 on and three only from 100 on, so the first digit is 0 for 0 alone. -/
theorem eq_zero_of_decimalDigits_head {b : Byte} (h : (decimalDigits b).head? = some '0') : b = 0 := by
  have hb := b.isLt
  simp only [decimalDigits] at h
  split at h
  · next hone => exact BitVec.eq_of_toNat_eq (eq_zero_of_digit_eq_zero hone (Option.some.inj h))
  · split at h
    · have hzero := eq_zero_of_digit_eq_zero (by omega) (Option.some.inj h)
      omega
    · have hzero := eq_zero_of_digit_eq_zero (by omega) (Option.some.inj h)
      omega

/-! ### The statements of 41_output.md -/

/-- Settles O29: `emit` and `setPc` change the two fields the statement names and no other. -/
theorem prnAndPraEmitTheirByte : Obligations.PrnAndPraEmitTheirByte :=
  fun _ _ _ ha hfits => ⟨rfl, rfl, exec_prn_next ha hfits, exec_pra_next ha hfits⟩

/-- Settles O30: the digits show the byte, are decimal digits, and begin with 0 for 0 alone. -/
theorem prnRendersUnsignedDecimal : Obligations.PrnRendersUnsignedDecimal :=
  fun v => ⟨shownFrom_decimalDigits v, decimalDigits_range v, eq_zero_of_decimalDigits_head, rfl⟩

end Sys2Proof.Proofs

/-! # Stack (42_stack.md) -/

namespace Sys2Proof.Proofs

open Sys2Proof Sys2Proof.Machine Sys2Proof.Claims

/-! ### What PUSH and POP commit -/

/-- PUSH completes with its register pushed and the pc at the next instruction (R122). -/
theorem exec_push_next {s : State} {a : Byte} {r : RegIdx} (ha : Names a r) (hfits : Fits 2 s) :
    exec (.push a) s = .next ((s.pushReg r).setPc (s.pc + 2)) :=
  withReg_advance_next (fun r => s.pushReg r) ha (lengthOf_opcodeByte (.push a)) hfits

/-- POP completes with its register popped and the pc at the next instruction (R123). -/
theorem exec_pop_next {s : State} {a : Byte} {r : RegIdx} (ha : Names a r) (hfits : Fits 2 s) :
    exec (.pop a) s = .next ((s.popReg r).setPc (s.pc + 2)) :=
  withReg_advance_next (fun r => s.popReg r) ha (lengthOf_opcodeByte (.pop a)) hfits

/-! ### What a push leaves to read, and what a pop leaves in the registers -/

/-- The byte below the old SP is the register, which for SP itself is the new SP (R120, D8). -/
theorem pushReg_read {s : State} (hm : Memory.wf s.mem) (r : RegIdx) (addr : Byte) :
    (s.pushReg r).read addr =
      if addr = s.reg SP - 1 then (if r = SP then s.reg SP - 1 else s.reg r) else s.read addr := by
  rw [State.pushReg_eq, State.pushVal_read hm]

theorem popReg_regs (s : State) (r : RegIdx) :
    (s.popReg r).regs =
      if r = SP then s.regs.set 7 (s.read (s.reg SP) + 1)
      else (s.regs.set r.val (s.read (s.reg SP))).set 7 (s.reg SP + 1) := by
  rw [State.popReg_eq]
  split
  · rfl
  · rfl

theorem popReg_reg {s : State} {r : RegIdx} (hr : r ≠ SP) (q : RegIdx) :
    (s.popReg r).reg q = if q = SP then s.reg SP + 1 else if q = r then s.read (s.reg SP) else s.reg q := by
  rw [State.popReg_eq, if_neg hr, State.setReg_reg, State.setReg_reg]

/-- A push and a pop after it, neither of SP: SP is back, and the register popped holds the one pushed. -/
theorem popReg_pushReg_reg {s : State} {ra rb : RegIdx} (hm : Memory.wf s.mem) (ha : ra ≠ SP) (hb : rb ≠ SP)
    (q : RegIdx) :
    ((s.pushReg ra).popReg rb).reg q = (s.setReg rb (s.reg ra)).reg q := by
  have hsp : (s.pushReg ra).reg SP = s.reg SP - 1 := by rw [State.pushReg_reg, if_pos rfl]
  rw [popReg_reg hb, hsp, State.setReg_reg]
  by_cases hq : q = SP
  · subst hq
    rw [if_pos rfl, if_neg hb.symm, BitVec.sub_add_cancel]
  · rw [if_neg hq, pushReg_read hm, if_pos rfl, if_neg ha, pushReg_reg_other ra hq]

theorem popReg_pushReg {s : State} {ra rb : RegIdx} (hm : Memory.wf s.mem) (ha : ra ≠ SP) (hb : rb ≠ SP) :
    (s.pushReg ra).popReg rb = { s.setReg rb (s.reg ra) with mem := (s.pushReg ra).mem } := by
  have hregs : ((s.pushReg ra).popReg rb).regs = s.regs.set rb.val (s.reg ra) :=
    regs_ext (popReg_pushReg_reg hm ha hb)
  exact congrArg (fun regs => { s with regs := regs, mem := (s.pushReg ra).mem }) hregs

/-! ### The statements of 42_stack.md -/

/-- Settles O31: PUSH completes with its push, and every address reads by the law of a push. -/
theorem pushStoresBelowStackPointer : Obligations.PushStoresBelowStackPointer := by
  intro s a r hm ha hfits
  refine ⟨rfl, _, exec_push_next ha hfits, rfl, fun addr => ?_⟩
  rw [State.setPc_read, pushReg_read hm]

/-- Settles O32: a pop changes no more than the registers, and POP moves the pc on. -/
theorem popLoadsFromStackPointer : Obligations.PopLoadsFromStackPointer := by
  intro s a r ha hfits
  refine ⟨rfl, ?_⟩
  rw [exec_pop_next ha hfits, ← popReg_regs]
  rfl

/-- Settles O33: the pop after the push undoes its change of SP, and the pc moves on by 2 twice. -/
theorem pushThenPopMovesValue : Obligations.PushThenPopMovesValue := by
  intro s a b ra rb hm ha hb hra hrb hfits
  have hfits' : Fits 2 ((s.pushReg ra).setPc (s.pc + 2)) := by
    rw [Fits, State.setPc_pc]
    bv_omega
  have hpc : s.pc + 2 + 2 = s.pc + 4 := BitVec.add_assoc _ _ _
  refine ⟨_, _, exec_push_next ha (by omega), exec_pop_next hb hfits', ?_⟩
  calc
    _ = ((s.pushReg ra).popReg rb).setPc (s.pc + 2 + 2) := rfl
    _ = { s with regs := s.regs.set rb.val (s.reg ra), mem := (s.pushReg ra).mem, pc := s.pc + 4 } := by
      rw [popReg_pushReg hm hra hrb, hpc]
      rfl

end Sys2Proof.Proofs

/-! # Subroutines (43_subroutine.md) -/

namespace Sys2Proof.Proofs

open Sys2Proof Sys2Proof.Machine Sys2Proof.Claims

/-! ### What CALL and RET answer -/

/-- Where the next instruction's address is not an address, there is nothing to push (R130, R141). -/
theorem withReturnAddress_fault {i : Instr} {s : State} (k : Byte → Result) {n : Nat}
    (hlen : lengthOf (opcodeByte i) = n) (h : 255 < s.pc.toNat + n) :
    withReturnAddress i s k = raise i s (.returnAddress (s.pc.toNat + n)) := by
  simp only [withReturnAddress, hlen]
  exact if_neg (Nat.not_lt.2 h)

/-- With its operand naming a register, CALL comes to the return address, before it pushes anything (R130). -/
theorem exec_call_of_named {s : State} {a : Byte} {r : RegIdx} (ha : Names a r) :
    exec (.call a) s =
      withReturnAddress (.call a) s fun ret => .next ((s.pushVal ret).setPc ((s.pushVal ret).reg r)) := by
  rw [exec, execCall, withReg_of_named ha]

/-- CALL completes with pc + 2 pushed and the pc at its register, which for R7 is the new SP (R130, D8). -/
theorem exec_call_next {s : State} {a : Byte} {r : RegIdx} (ha : Names a r) (hfits : Fits 2 s) :
    exec (.call a) s =
      .next ((s.pushVal (s.pc + 2)).setPc (if r = SP then s.reg SP - 1 else s.reg r)) := by
  rw [exec_call_of_named ha, withReturnAddress_next (lengthOf_opcodeByte (.call a)) hfits, ← State.pushVal_reg]
  rfl

/-- CALL faults where pc + 2 is no address (R130). -/
theorem exec_call_fault {s : State} {a : Byte} {r : RegIdx} (ha : Names a r) (hpast : 255 < s.pc.toNat + 2) :
    exec (.call a) s = raise (.call a) s (.returnAddress (s.pc.toNat + 2)) := by
  rw [exec_call_of_named ha, withReturnAddress_fault (n := 2) _ (lengthOf_opcodeByte (.call a)) hpast]

/-- RET pops the pc (R131). -/
theorem exec_ret (s : State) : exec .ret s = .next ((s.setReg SP (s.reg SP + 1)).setPc (s.read (s.reg SP))) := rfl

/-! ### The statements of 43_subroutine.md -/

/-- Settles O36: the push left SP one lower with pc + 2 there, which is what RET pops. -/
theorem retReturnsAfterCall : Obligations.RetReturnsAfterCall := by
  intro s h a r hm ha hfits
  refine ⟨_, exec_call_next ha hfits, fun hsp htop => ?_⟩
  have hcallSp (v w : Byte) : ((s.pushVal v).setPc w).reg SP = s.reg SP - 1 := State.pushVal_reg s v SP
  rw [hcallSp] at hsp htop
  rw [State.setPc_read, State.pushVal_read hm, if_pos rfl] at htop
  rw [exec_ret, hsp, htop, BitVec.sub_add_cancel]
  rfl

/-- Settles O34: where pc + 2 is an address CALL commits its push, which every address reads by the law of a push; at
0xFE it faults. -/
theorem callPushesReturnAddressAndJumps : Obligations.CallPushesReturnAddressAndJumps := by
  intro s a r hm ha
  refine ⟨rfl, fun hfits => ⟨_, exec_call_next ha hfits, rfl, fun addr => ?_⟩, fun hpc => ?_⟩
  · rw [State.setPc_read, State.pushVal_read hm]
  · have hdetail : s.pc.toNat + 2 = 256 := by rw [hpc]; rfl
    rw [exec_call_fault ha (by omega), hdetail]
    rfl

/-- Settles O35: `setReg` and `setPc` change the two fields the statement names and no other. -/
theorem retPopsThePc : Obligations.RetPopsThePc := ⟨rfl, exec_ret⟩

end Sys2Proof.Proofs

/-! # Interrupts (44_interrupt.md) -/

namespace Sys2Proof.Proofs

open Sys2Proof Sys2Proof.Machine Sys2Proof.Claims

/-! ### The saved machine: the frame that INT pushes -/

theorem toByte_eq (f : Flags) : f.toByte = BitVec.ofNat 8 (flagsNumber f) := by
  rw [← (flagsByteHoldsLGE.1 f).1, BitVec.ofNat_toNat, BitVec.setWidth_eq]

theorem ofByte_flagsNumber (f : Flags) : Flags.ofByte (BitVec.ofNat 8 (flagsNumber f)) = f := by
  rw [← toByte_eq]
  exact (flagsByteHoldsLGE.1 f).2

/-- INT pushes the bytes of R144, one after another. -/
theorem pushFrame_eq_frameBytes (s : State) : s.pushFrame (s.pc + 2) = (frameBytes s).foldl State.pushVal s := by
  rw [State.pushFrame_eq, toByte_eq, frameBytes]

theorem pushFrame_read {s : State} (hm : Memory.wf s.mem) (addr : Byte) :
    (s.pushFrame (s.pc + 2)).read addr = afterFrame s addr := by
  have hlen : (frameBytes s).length ≤ 256 := by simp [frameBytes]
  rw [pushFrame_eq_frameBytes, State.pushVals_read _ hm hlen]
  rfl

theorem pushVals_eq (bytes : List Byte) (s : State) :
    bytes.foldl State.pushVal s =
      { s with regs := (bytes.foldl State.pushVal s).regs, mem := (bytes.foldl State.pushVal s).mem } := by
  induction bytes generalizing s with
  | nil => rfl
  | cons v vs ih => exact ih (s.pushVal v)

theorem pushFrame_regs (s : State) (ret : Byte) : (s.pushFrame ret).regs = s.regs.set 7 (s.reg 7 - 10) := by
  obtain ⟨-, -, -, -, -, hother, hsp⟩ := State.pushFrame_fields s ret
  refine regs_ext fun q => (?_ : (s.pushFrame ret).reg q = (s.setReg SP (s.reg SP - 10)).reg q)
  by_cases hq : q = SP
  · rw [hq, hsp, State.setReg_reg_same]
  · rw [hother q hq, State.setReg_reg_other s _ hq]

/-- Saving the machine changes SP and memory alone. -/
theorem pushFrame_keeps (s : State) (ret : Byte) :
    s.pushFrame ret = { s with regs := s.regs.set 7 (s.reg 7 - 10), mem := (s.pushFrame ret).mem } := by
  rw [← pushFrame_regs s ret, State.pushFrame_eq]
  exact pushVals_eq _ s

/-! ### What INT answers -/

theorem exec_int_of_named {s : State} {a : Byte} {r : RegIdx} (ha : Names a r) :
    exec (.int a) s = enterInterrupt (.int a) s r := by
  rw [exec, execInt, withReg_of_named ha]

/-- Where pc + 2 is an address, INT saves the machine and looks for the vector slot of its number (R141). -/
theorem exec_int_of_fits {s : State} {a : Byte} {r : RegIdx} (ha : Names a r) (hfits : Fits 2 s) :
    exec (.int a) s =
      let w := s.pushFrame (s.pc + 2)
      let slot := 0xF8 + (interruptNumber s r).toNat
      if slot < 256 then .next (w.setPc (w.read (BitVec.ofNat 8 slot))) else raise (.int a) s (.vector slot) := by
  rw [exec_int_of_named ha, enterInterrupt, withReturnAddress_next (lengthOf_opcodeByte (.int a)) hfits]
  simp only [pushFrame_reg]
  rfl

/-- INT completes with its frame pushed and the pc at the handler, read from the memory that holds the frame (R141). -/
theorem exec_int_next {s : State} {a : Byte} {r : RegIdx} (hm : Memory.wf s.mem) (ha : Names a r) (hfits : Fits 2 s)
    (hn : (interruptNumber s r).toNat < 8) :
    exec (.int a) s = .next ((s.pushFrame (s.pc + 2)).setPc (afterFrame s (0xF8#8 + interruptNumber s r))) := by
  have hslot : BitVec.ofNat 8 (0xF8 + (interruptNumber s r).toNat) = 0xF8#8 + interruptNumber s r := by
    rw [BitVec.ofNat_add, BitVec.ofNat_toNat, BitVec.setWidth_eq]
  rw [exec_int_of_fits ha hfits, ← pushFrame_read hm, ← hslot]
  exact if_pos (by omega)

/-- INT faults where its number has no vector slot (R140). -/
theorem exec_int_vector {s : State} {a : Byte} {r : RegIdx} (ha : Names a r) (hfits : Fits 2 s)
    (hn : 8 ≤ (interruptNumber s r).toNat) :
    exec (.int a) s = raise (.int a) s (.vector (0xF8 + (interruptNumber s r).toNat)) := by
  rw [exec_int_of_fits ha hfits]
  exact if_neg (by omega)

/-- INT faults where pc + 2 is no address (R141). -/
theorem exec_int_returnAddress {s : State} {a : Byte} {r : RegIdx} (ha : Names a r) (hpast : 255 < s.pc.toNat + 2) :
    exec (.int a) s = raise (.int a) s (.returnAddress (s.pc.toNat + 2)) := by
  rw [exec_int_of_named ha, enterInterrupt, withReturnAddress_fault (n := 2) _ (lengthOf_opcodeByte (.int a)) hpast]

/-! ### What IRET pops -/

/-- The register file, register by register. -/
theorem regs_eq_literal (s : State) :
    s.regs = #v[s.reg 0, s.reg 1, s.reg 2, s.reg 3, s.reg 4, s.reg 5, s.reg 6, s.reg 7] :=
  regs_ext fun r => by fin_cases r <;> rfl

theorem popRegs_eq (rs : List RegIdx) (s : State) :
    rs.foldl State.popReg s = { s with regs := (rs.foldl State.popReg s).regs } := by
  induction rs generalizing s with
  | nil => rfl
  | cons r rs ih => exact ih (s.popReg r)

/-- Pops into distinct registers other than SP: the k-th register of the list takes the byte k above SP. -/
theorem popRegs_reg {rs : List RegIdx} (hsp : SP ∉ rs) (hdistinct : rs.Nodup) (s : State) (q : RegIdx) :
    (rs.foldl State.popReg s).reg q =
      if q = SP then s.reg SP + BitVec.ofNat 8 rs.length
      else if q ∈ rs then s.read (s.reg SP + BitVec.ofNat 8 (rs.idxOf q)) else s.reg q := by
  induction rs generalizing s with
  | nil => by_cases hq : q = SP <;> simp [hq]
  | cons r rs ih =>
    obtain ⟨hr, hrest⟩ := List.nodup_cons.1 hdistinct
    obtain ⟨hrsp, hsprest⟩ : SP ≠ r ∧ SP ∉ rs := by simpa using hsp
    have hup (n : Nat) : s.reg SP + 1 + BitVec.ofNat 8 n = s.reg SP + BitVec.ofNat 8 (n + 1) := by
      rw [BitVec.add_assoc, Nat.add_comm n, BitVec.ofNat_add]
      rfl
    rw [List.foldl_cons, ih hsprest hrest, popReg_reg hrsp.symm, popReg_reg hrsp.symm, if_pos rfl, hup]
    by_cases hq : q = SP
    · rw [if_pos hq, if_pos hq, List.length_cons]
    · by_cases hqr : q = r
      · simp [hqr, hr, hrsp.symm]
      · have hidx : (r :: rs).idxOf q = rs.idxOf q + 1 := List.idxOf_cons_ne rs (Ne.symm hqr)
        have hmem : q ∈ r :: rs ↔ q ∈ rs := List.mem_cons.trans (or_iff_right hqr)
        simp only [if_neg hq, if_neg hqr, State.popReg_read, hup, hidx, hmem]

/-- The register pops of IRET: the first leaves SP just above the saved R7, and the others walk the frame from there
(R142). -/
theorem popOrder_regs (s : State) :
    let m := s.read (s.reg 7)
    (popOrder.foldl State.popReg s).regs =
      #v[s.read (m + 7), s.read (m + 6), s.read (m + 5), s.read (m + 4), s.read (m + 3), s.read (m + 2), s.read (m + 1),
        m + 8] := by
  intro m
  have hsp : (s.popReg SP).reg SP = m + 1 := by
    rw [State.popReg_eq, if_pos rfl, State.setReg_reg_same]
  have hreg (q : RegIdx) :
      (popOrder.foldl State.popReg s).reg q =
        if q = SP then m + 1 + 7
        else if q ∈ [6, 5, 4, 3, 2, 1, 0] then s.read (m + 1 + BitVec.ofNat 8 ([6, 5, 4, 3, 2, 1, 0].idxOf q))
        else (s.popReg SP).reg q := by
    rw [popOrder, List.foldl_cons, popRegs_reg (by decide) (by decide), hsp]
    rfl
  have hup (n : Byte) : m + 1 + n = m + (1 + n) := BitVec.add_assoc m 1 n
  simp only [regs_eq_literal, hreg, hup]
  rfl

/-- IRET pops the registers, FL and the pc (R142). -/
theorem exec_iret (s : State) :
    let m := s.read (s.reg 7)
    exec .iret s = .next { s with
      regs := #v[s.read (m + 7), s.read (m + 6), s.read (m + 5), s.read (m + 4), s.read (m + 3), s.read (m + 2),
        s.read (m + 1), m + 10]
      fl := Flags.ofByte (s.read (m + 8))
      pc := s.read (m + 9) } := by
  intro m
  have hpc : m + 8 + 1 = m + 9 := BitVec.add_assoc m 8 1
  have hsp : m + 8 + 2 = m + 10 := BitVec.add_assoc m 8 2
  rw [exec, execIret, returnFromInterrupt, popRegs_eq, popOrder_regs, State.popFlagsAndPc_eq, ← hpc, ← hsp]
  rfl

/-! ### The frame read back -/

/-- The byte k above the saved R7 is the frame's byte 9 - k, the first pushed being byte 0 (R144). -/
theorem depth_above (sp : Byte) {k : Byte} (hk : k.toNat < 10) : (sp - 1 - (sp - 10 + k)).toNat = 9 - k.toNat := by
  bv_omega

theorem mem_frameAddresses (sp : Byte) {k : Byte} (hk : k.toNat < 10) : sp - 10 + k ∈ frameAddresses sp := by
  by_contra hout
  have hdeep := depth_of_not_mem_frameAddresses hout
  rw [depth_above sp hk] at hdeep
  omega

theorem afterFrame_above (s : State) {k : Byte} (hk : k.toNat < 10) :
    afterFrame s (s.reg 7 - 10 + k) = (frameBytes s).getD (9 - k.toNat) 0 := by
  rw [afterFrame, depth_above _ hk]
  exact if_pos (by omega)

/-! ### The statements of 44_interrupt.md -/

/-- Settles O38: the register pops walk the frame from the saved R7, and FL and the pc stand above them. -/
theorem iretRestoresFromTheFrame : Obligations.IretRestoresFromTheFrame := ⟨rfl, exec_iret⟩

/-- Settles O37: where pc + 2 is an address, the number decides between the frame, which every address reads by the law
of a run of pushes, and the VECTOR fault; at 0xFE INT faults before it pushes anything. -/
theorem intPushesFrameAndVectors : Obligations.IntPushesFrameAndVectors := by
  intro s a r hm ha n
  refine ⟨rfl, fun hfits hn => ⟨_, exec_int_next hm ha hfits hn, ?_, fun addr => ?_⟩, fun hfits hn => ?_, fun hpc => ?_⟩
  · exact congrArg (fun w => w.setPc (afterFrame s (0xF8#8 + n))) (pushFrame_keeps s (s.pc + 2))
  · rw [State.setPc_read, pushFrame_read hm]
  · rw [exec_int_vector ha hfits hn]
    rfl
  · have hdetail : s.pc.toNat + 2 = 256 := by rw [hpc]; rfl
    rw [exec_int_returnAddress ha (by omega), hdetail]
    rfl

/-- Settles O39: INT left SP at the saved R7, which is that address itself, so each pop of IRET meets the frame byte of
its own register, of FL or of the return address. -/
theorem iretUndoesInt : Obligations.IretUndoesInt := by
  intro s h a r hm ha hfits hn
  refine ⟨_, exec_int_next hm ha hfits hn, fun hsp hframe => ?_⟩
  have hsp' : h.reg 7 = s.reg 7 - 10 := by
    rw [hsp, State.setPc_reg, pushFrame_reg, interruptNumber, if_pos rfl]
  have hread (k : Byte) (hk : k.toNat < 10) : h.read (s.reg 7 - 10 + k) = (frameBytes s).getD (9 - k.toNat) 0 := by
    rw [hframe _ (mem_frameAddresses _ hk), State.setPc_read, pushFrame_read hm, afterFrame_above s hk]
  have hbottom : h.read (s.reg 7 - 10) = s.reg 7 - 10 := by
    simpa [frameBytes] using hread 0 (by decide)
  rw [exec_iret, hsp', hbottom, BitVec.sub_add_cancel, regs_eq_literal s]
  simp (disch := decide) only [hread]
  simp [frameBytes, ofByte_flagsNumber]

end Sys2Proof.Proofs

/-! # Control transfer (45_control_transfer.md) -/

namespace Sys2Proof.Proofs

open Sys2Proof Sys2Proof.Machine Sys2Proof.Claims

/-! ### What a jump commits -/

section
variable {i : Instr} {taken : Bool} {s : State} {a : Byte} {r : RegIdx}

/-- A taken jump has its register's value as the pc, wherever the jump itself stands (R150 to R154). -/
theorem jumpWhen_taken (ha : Names a r) (htaken : taken = true) :
    jumpWhen i taken a s = .next (s.setPc (s.reg r)) := by
  rw [jumpWhen, withReg_of_named ha, if_pos htaken]

/-- A jump that is not taken only advances, by the two bytes of its encoding (R82, R83). -/
theorem jumpWhen_not_taken (ha : Names a r) (hlen : lengthOf (opcodeByte i) = 2) (hnot : taken = false)
    (hfits : Fits 2 s) : jumpWhen i taken a s = .next (s.setPc (s.pc + 2)) := by
  subst hnot
  exact withReg_advance_next (fun _ => s) ha hlen hfits

end

/-! ### The condition that each jump consults -/

theorem exec_jmp (a : Byte) (s : State) : exec (.jmp a) s = jumpWhen (.jmp a) true a s := rfl

theorem exec_jeq (a : Byte) (s : State) : exec (.jeq a) s = jumpWhen (.jeq a) s.fl.e a s := rfl

theorem exec_jne (a : Byte) (s : State) : exec (.jne a) s = jumpWhen (.jne a) (!s.fl.e) a s := rfl

theorem exec_jgt (a : Byte) (s : State) : exec (.jgt a) s = jumpWhen (.jgt a) s.fl.g a s := rfl

theorem exec_jlt (a : Byte) (s : State) : exec (.jlt a) s = jumpWhen (.jlt a) s.fl.l a s := rfl

/-! ### The statements of 45_control_transfer.md -/

/-- Settles O41: JMP is the jump that is always taken. -/
theorem jmpAssignsThePc : Obligations.JmpAssignsThePc :=
  fun s a _ ha => ⟨rfl, (exec_jmp a s).trans (jumpWhen_taken ha rfl)⟩

/-- Settles O42: each jump's flag decides between the taken jump and the advancement; JNE consults the negation of E. -/
theorem conditionalJumpsFollowTheirFlag : Obligations.ConditionalJumpsFollowTheirFlag := by
  intro s a r ha
  rw [exec_jeq, exec_jne, exec_jgt, exec_jlt]
  have jneTaken (he : s.fl.e = false) : (!s.fl.e) = true := by rw [he, Bool.not_false]
  have jneNotTaken (he : s.fl.e = true) : (!s.fl.e) = false := by rw [he, Bool.not_true]
  exact ⟨rfl, rfl, rfl, rfl,
    jumpWhen_taken ha, jumpWhen_not_taken ha (lengthOf_opcodeByte (.jeq a)),
    fun he => jumpWhen_taken ha (jneTaken he),
    fun he => jumpWhen_not_taken ha (lengthOf_opcodeByte (.jne a)) (jneNotTaken he),
    jumpWhen_taken ha, jumpWhen_not_taken ha (lengthOf_opcodeByte (.jgt a)),
    jumpWhen_taken ha, jumpWhen_not_taken ha (lengthOf_opcodeByte (.jlt a))⟩

end Sys2Proof.Proofs

/-! # Arithmetic and logic (46_alu.md) -/

namespace Sys2Proof.Proofs

open Sys2Proof Sys2Proof.Machine Sys2Proof.Claims

/-! ### What each form of ALU operation answers -/

section
variable {i : Instr} {s : State} {a b : Byte} {ra rb : RegIdx} {v : Byte}

/-- A two-operand operation commits its value `v` (R160). -/
theorem aluBinary_next (f : Byte → Byte → Byte) (ha : Names a ra) (hb : Names b rb) (hfits : Fits 3 s)
    (hlen : lengthOf (opcodeByte i) = 3) (hv : f (s.reg ra) (s.reg rb) = v) :
    aluBinary i f a b s = .next ((s.setReg ra v).setPc (s.pc + 3)) := by
  subst hv
  exact withRegs_advance_next (fun ra rb => s.setReg ra (f (s.reg ra) (s.reg rb))) ha hb hlen hfits

/-- A one-operand operation commits its value `v` (R160). -/
theorem aluUnary_next (f : Byte → Byte) (ha : Names a ra) (hfits : Fits 2 s)
    (hlen : lengthOf (opcodeByte i) = 2) (hv : f (s.reg ra) = v) :
    aluUnary i f a s = .next ((s.setReg ra v).setPc (s.pc + 2)) := by
  subst hv
  exact withReg_advance_next (fun r => s.setReg r (f (s.reg r))) ha hlen hfits

/-- A division by another number than 0 commits its value `v` (R164, R165). -/
theorem aluDivision_next (f : Byte → Byte → Byte) (ha : Names a ra) (hb : Names b rb) (hfits : Fits 3 s)
    (hlen : lengthOf (opcodeByte i) = 3) (hne : s.reg rb ≠ 0#8) (hv : f (s.reg ra) (s.reg rb) = v) :
    aluDivision i f a b s = .next ((s.setReg ra v).setPc (s.pc + 3)) := by
  subst hv
  rw [aluDivision, withRegs_of_named ha hb, if_neg hne]
  exact advance_next s _ hlen hfits

/-- A division by 0 raises NUMERIC, at any pc (R164, R165, R203). -/
theorem aluDivision_by_zero (f : Byte → Byte → Byte) (ha : Names a ra) (hb : Names b rb) (hzero : s.reg rb = 0#8) :
    aluDivision i f a b s = raise i s .numeric := by
  rw [aluDivision, withRegs_of_named ha hb, if_pos hzero]

theorem exec_div (a b : Byte) (s : State) :
    exec (.div a b) s = aluDivision (.div a b) (fun x y => BitVec.ofNat 8 (x.toNat / y.toNat)) a b s := rfl

theorem exec_mod (a b : Byte) (s : State) :
    exec (.mod a b) s = aluDivision (.mod a b) (fun x y => BitVec.ofNat 8 (x.toNat % y.toNat)) a b s := rfl

/-- CMP commits the flags of its comparison (R168). -/
theorem exec_cmp_next (ha : Names a ra) (hb : Names b rb) (hfits : Fits 3 s) :
    exec (.cmp a b) s = .next ((s.setFlags (Flags.compare (s.reg ra) (s.reg rb))).setPc (s.pc + 3)) :=
  withRegs_advance_next (fun ra rb => s.setFlags (Flags.compare (s.reg ra) (s.reg rb))) ha hb
    (lengthOf_opcodeByte (.cmp a b)) hfits

end

/-! ### The values, as numbers -/

theorem eq_ofNat_of_toNat_eq {v : Byte} {n : Nat} (h : v.toNat = n) : v = BitVec.ofNat 8 n := by
  rw [← h, BitVec.ofNat_toNat, BitVec.setWidth_eq]

theorem add_eq_ofNat (x y : Byte) : x + y = BitVec.ofNat 8 ((x.toNat + y.toNat) % 256) :=
  eq_ofNat_of_toNat_eq (BitVec.toNat_add x y)

theorem sub_eq_ofNat (x y : Byte) : x - y = BitVec.ofNat 8 ((x.toNat + 256 - y.toNat) % 256) := by
  refine eq_ofNat_of_toNat_eq ?_
  have hy := y.isLt
  rw [BitVec.toNat_sub]
  omega

theorem mul_eq_ofNat (x y : Byte) : x * y = BitVec.ofNat 8 (x.toNat * y.toNat % 256) :=
  eq_ofNat_of_toNat_eq (BitVec.toNat_mul x y)

theorem not_eq_ofNat (x : Byte) : ~~~x = BitVec.ofNat 8 (255 - x.toNat) :=
  eq_ofNat_of_toNat_eq BitVec.toNat_not

theorem ofNat_div_eq (x y : Byte) : BitVec.ofNat 8 (x.toNat / y.toNat) = x / y :=
  (eq_ofNat_of_toNat_eq BitVec.toNat_udiv).symm

theorem ofNat_mod_eq (x y : Byte) : BitVec.ofNat 8 (x.toNat % y.toNat) = x % y :=
  (eq_ofNat_of_toNat_eq BitVec.toNat_umod).symm

/-- Quotient and remainder make up the dividend again, and the remainder is below the divisor (R164, R165). -/
theorem div_mod_spec {x y : Byte} (hne : y ≠ 0#8) :
    x.toNat = (x / y).toNat * y.toNat + (x % y).toNat ∧ (x % y).toNat < y.toNat := by
  rw [BitVec.toNat_udiv, BitVec.toNat_umod]
  exact ⟨(Nat.div_add_mod' x.toNat y.toNat).symm, Nat.mod_lt _ (BitVec.toNat_pos_of_ne_zero hne)⟩

/-- Of two numbers the first is equal to, above or below the second, and only one of these (R168). -/
theorem compare_sets_one (x y : Byte) :
    (Flags.compare x y).e.toNat + (Flags.compare x y).g.toNat + (Flags.compare x y).l.toNat = 1 := by
  dsimp only [Flags.compare]
  rcases Nat.lt_trichotomy x.toNat y.toNat with h | h | h
  · simp [h, h.ne, h.le]
  · simp [h]
  · simp [h, h.ne', h.le]

/-! ### The statements of 46_alu.md -/

/-- Settles O43: each byte operation is the operation on numbers, modulo 256. -/
theorem addSubMulWrapModulo256 : Obligations.AddSubMulWrapModulo256 :=
  fun _ a b _ _ ha hb hfits => ⟨rfl, rfl, rfl,
    aluBinary_next (· + ·) ha hb hfits (lengthOf_opcodeByte (.add a b)) (add_eq_ofNat _ _),
    aluBinary_next (· - ·) ha hb hfits (lengthOf_opcodeByte (.sub a b)) (sub_eq_ofNat _ _),
    aluBinary_next (· * ·) ha hb hfits (lengthOf_opcodeByte (.mul a b)) (mul_eq_ofNat _ _)⟩

/-- Settles O44: the bytes `x / y` and `x % y` are the quotient and the remainder; a zero divisor raises NUMERIC before the
advancement is looked at. -/
theorem divAndModDivideOrFault : Obligations.DivAndModDivideOrFault := by
  intro s a b ra rb ha hb
  rw [exec_div, exec_mod]
  refine ⟨rfl, rfl, fun hfits hne => ⟨s.reg ra / s.reg rb, s.reg ra % s.reg rb, ?_, ?_, div_mod_spec hne⟩,
    fun hzero => ⟨aluDivision_by_zero _ ha hb hzero, aluDivision_by_zero _ ha hb hzero⟩⟩
  · exact aluDivision_next _ ha hb hfits (lengthOf_opcodeByte (.div a b)) hne (ofNat_div_eq _ _)
  · exact aluDivision_next _ ha hb hfits (lengthOf_opcodeByte (.mod a b)) hne (ofNat_mod_eq _ _)

/-- Settles O45: INC and DEC add and subtract the byte 1, modulo 256, and inverting every bit subtracts from 255. -/
theorem incDecNotChangeOneRegister : Obligations.IncDecNotChangeOneRegister :=
  fun _ a _ ha hfits => ⟨rfl, rfl, rfl,
    aluUnary_next (· + 1) ha hfits (lengthOf_opcodeByte (.inc a)) (add_eq_ofNat _ 1),
    aluUnary_next (· - 1) ha hfits (lengthOf_opcodeByte (.dec a)) (sub_eq_ofNat _ 1),
    aluUnary_next (~~~·) ha hfits (lengthOf_opcodeByte (.not a)) (not_eq_ofNat _)⟩

/-- Settles O46: the library's bitwise operations on bytes, read bit by bit. -/
theorem andOrXorActBitByBit : Obligations.AndOrXorActBitByBit :=
  fun s a b ra rb ha hb hfits => ⟨rfl, rfl, rfl, s.reg ra &&& s.reg rb, s.reg ra ||| s.reg rb, s.reg ra ^^^ s.reg rb,
    aluBinary_next (· &&& ·) ha hb hfits (lengthOf_opcodeByte (.and a b)) rfl,
    aluBinary_next (· ||| ·) ha hb hfits (lengthOf_opcodeByte (.or a b)) rfl,
    aluBinary_next (· ^^^ ·) ha hb hfits (lengthOf_opcodeByte (.xor a b)) rfl,
    fun _ _ => ⟨BitVec.getLsbD_and, BitVec.getLsbD_or, BitVec.getLsbD_xor⟩⟩

/-- Settles O47: each flag decides its own comparison, and exactly one of the three comparisons holds. -/
theorem cmpSetsExactlyOneFlag : Obligations.CmpSetsExactlyOneFlag :=
  fun s _ _ ra rb ha hb hfits => ⟨rfl, Flags.compare (s.reg ra) (s.reg rb), exec_cmp_next ha hb hfits,
    decide_eq_true_iff, decide_eq_true_iff, decide_eq_true_iff, compare_sets_one _ _⟩

end Sys2Proof.Proofs

/-! # Halt (47_halt.md) -/

namespace Sys2Proof.Proofs

open Sys2Proof Sys2Proof.Machine Sys2Proof.Claims

/-- HLT halts in place: it computes no advancement, so it is legal at 0xFF too (R190). -/
theorem exec_hlt (s : State) : exec .hlt s = .next s.halt := rfl

/-- Settles O48: HLT's byte is its opcode alone, and its execution changes the status alone. -/
theorem hltHaltsInPlace : Obligations.HltHaltsInPlace := ⟨rfl, exec_hlt⟩

end Sys2Proof.Proofs

/-! # Exceptions (60_exceptions.md) -/

namespace Sys2Proof.Proofs

open Sys2Proof Sys2Proof.Machine Sys2Proof.Claims

/-- Where no register operand is found bad, the instruction is well formed: the checks of R207 after REG_INDEX
come to a well-formed instruction. -/
theorem wf_of_checkFails {i : Instr} {s : State} {r : Raise} (h : CheckFails i s r) (hr : r.cause ≠ .regIndex) :
    i.wf = true := by
  cases r with
  | decode => exact h.elim
  | fetch n => exact h.elim
  | regIndex b => exact absurd rfl hr
  | pcAdvance n => exact h.1.1
  | returnAddress n => exact h.1
  | vector n =>
    obtain ⟨a, q, rfl, hq, -⟩ := h
    exact wf_iff.2 (by simp [Instr.regOperands, hq])
  | numeric => exact h.1

/-- A machine without a fault record that holds one after an execution has taken the fault of the first check that
fails. -/
theorem checkFails_of_exec_fault {i : Instr} {s t : State} {f : FaultRecord} (hs : s.fault = none)
    (h : exec i s = .next t) (hf : t.fault = some f) :
    ∃ r, CheckFails i s r ∧ f = r.record s.pc (opcodeByte i) (operandBytes i) := by
  cases exec_ends h with
  | commits _ hkeeps => cases hs.symm.trans (hkeeps.fault.symm.trans hf)
  | halts => cases hs.symm.trans hf
  | @faults r hfail =>
    cases hf
    exact ⟨r, hfail, rfl⟩

/-- Settles O12: the raise that the record reports is one whose check has failed, and its cause says which one. -/
theorem reportedFaultIsFirstFailedCheck : Obligations.ReportedFaultIsFirstFailedCheck := by
  intro i s t f hs h hf
  obtain ⟨r, hfail, rfl⟩ := checkFails_of_exec_fault hs h hf
  have hwf := wf_of_checkFails hfail
  cases r with
  | decode => exact hfail.elim
  | fetch n => exact hfail.elim
  | regIndex b => exact ⟨nofun, nofun, ⟨nofun, nofun⟩, fun _ => ⟨b, hfail, rfl⟩, hwf, nofun, nofun, nofun, nofun⟩
  | returnAddress n =>
    obtain ⟨-, hi, rfl, hpast⟩ := hfail
    have hlen : lengthOf (opcodeByte i) = 2 := by
      obtain ⟨a, rfl | rfl⟩ := hi
      · exact lengthOf_opcodeByte (.call a)
      · exact lengthOf_opcodeByte (.int a)
    exact ⟨nofun, nofun, ⟨nofun, nofun⟩, nofun, hwf, fun _ => ⟨hi, hlen ▸ hpast⟩, nofun, nofun, nofun⟩
  | vector n =>
    obtain ⟨a, q, hi, hq, hfits, rfl, hpast⟩ := hfail
    have hnumber : 8 ≤ (interruptNumber s q).toNat := by omega
    exact ⟨nofun, nofun, ⟨nofun, nofun⟩, nofun, hwf, nofun, fun _ => ⟨a, q, hi, hq, hfits, hnumber⟩, nofun, nofun⟩
  | numeric => exact ⟨nofun, nofun, ⟨fun _ => rfl, fun _ => rfl⟩, nofun, hwf, nofun, nofun, fun _ => hfail.2, nofun⟩
  | pcAdvance n =>
    obtain ⟨hadv, rfl, hpast⟩ := hfail
    exact ⟨nofun, nofun, ⟨nofun, nofun⟩, nofun, hwf, nofun, nofun, nofun, fun _ => ⟨hadv, hpast⟩⟩

end Sys2Proof.Proofs

/-! # Reset and the host's operations (70_reset_and_hazards.md) -/

namespace Sys2Proof.Proofs

open Sys2Proof Sys2Proof.Machine Sys2Proof.Claims

/-! ### The registers after reset -/

theorem resetWith_reg_below (gpr : Vector Byte 7) (fl : Flags) {k : Nat} (hk : k < 7) :
    (State.resetWith gpr fl).reg ⟨k, by omega⟩ = gpr[k] := Vector.getElem_push_lt hk

theorem resetWith_reg_sp (gpr : Vector Byte 7) (fl : Flags) : (State.resetWith gpr fl).reg SP = 0xF4#8 :=
  Vector.getElem_push_eq

/-! ### Loading an image -/

/-- What memory reads after bytes are written from address `n` up: the bytes, and elsewhere what it read before. -/
theorem read_writeBytes (bytes : List Byte) {m : Memory} (hm : Memory.wf m) {n : Nat} (hn : n + bytes.length ≤ 256)
    (k : Nat) : (m.writeBytes n bytes).read k = if n ≤ k then bytes.getD (k - n) (m.read k) else m.read k := by
  induction bytes generalizing m n with
  | nil => simp [Memory.writeBytes]
  | cons v vs ih =>
    rw [List.length_cons] at hn
    have hinside : n < 256 := by omega
    rw [Memory.writeBytes, if_pos hinside, ih (Memory.write_wf hm hinside v) (by omega), Memory.read_write hm]
    rcases Nat.lt_trichotomy k n with hk | rfl | hk
    · have hne : k ≠ n := by omega
      have hbelow : ¬ n ≤ k := by omega
      have hbelow' : ¬ n + 1 ≤ k := by omega
      rw [if_neg hne, if_neg hbelow, if_neg hbelow']
    · simp
    · have hne : k ≠ n := by omega
      have hoffset : k - n = k - (n + 1) + 1 := by omega
      rw [if_neg hne, if_pos (Nat.succ_le_of_lt hk), if_pos hk.le, hoffset, List.getD_cons_succ]

theorem load_of_fits (s : State) {image : List Byte} (h : image.length ≤ 256) :
    s.load image = some { s with mem := s.mem.writeBytes 0 image } := if_pos h

theorem load_of_long (s : State) {image : List Byte} (h : 256 < image.length) : s.load image = none :=
  if_neg (Nat.not_le.2 h)

theorem load_isSome {s : State} {image : List Byte} : (s.load image).isSome = true ↔ image.length ≤ 256 := by
  by_cases h : image.length ≤ 256
  · simp [load_of_fits s h, h]
  · simp [load_of_long s (Nat.not_le.1 h), h]

/-! ### Running -/

theorem stepState_of_next {s t : State} (h : step s = .next t) : stepState s = t := by
  rw [stepState, h]

/-- A machine that has stopped is returned at once, with any fuel (R85, R243). -/
theorem run_of_stopped {s : State} (hs : s.status ≠ .running) (n : Nat) : run n s = (s, .ended s.status) := by
  cases n <;> rw [run, if_neg hs]

/-- A RUNNING machine with fuel takes a step and runs on (R243). -/
theorem run_of_running {s : State} (hs : s.status = .running) (n : Nat) : run (n + 1) s = run n (stepState s) := by
  rw [run, if_pos hs]

theorem run_add (m n : Nat) (s : State) : run (m + n) s = run n (run m s).1 := by
  induction m generalizing s with
  | zero => rw [Nat.zero_add, run]
  | succ m ih =>
    by_cases hs : s.status = .running
    · rw [Nat.succ_add, run_of_running hs, run_of_running hs, ih]
    · rw [run_of_stopped hs, run_of_stopped hs, run_of_stopped hs]

theorem run_outOfFuel_iff (m : Nat) (s : State) :
    (run m s).2 = .outOfFuel ↔ (run m s).1.status = .running := by
  induction m generalizing s with
  | zero => simp [run]
  | succ m ih =>
    by_cases hs : s.status = .running
    · rw [run_of_running hs, ih]
    · simp [run_of_stopped hs, hs]

/-! ### When a load is legal -/

section
variable {gpr : Vector Byte 7} {h h' : Session} {reply : HostReply}

theorem perform_load_of_stepped (hs : h.stepped = true) (image : List Byte) :
    Session.perform gpr h (.load image) = none := if_pos hs

theorem perform_load_of_not_stepped (hs : h.stepped = false) (image : List Byte) :
    Session.perform gpr h (.load image) = (h.machine.load image).map fun s => (⟨s, false⟩, .done) := by
  rw [Session.perform, hs, if_neg Bool.false_ne_true]

/-- A load is legal exactly while no step has been taken and the image fits (R234, R241). -/
theorem perform_load_isSome {image : List Byte} :
    (Session.perform gpr h (.load image)).isSome = true ↔ h.stepped = false ∧ image.length ≤ 256 := by
  cases hs : h.stepped with
  | true => simp [perform_load_of_stepped hs]
  | false => simp [perform_load_of_not_stepped hs, load_isSome]

/-- A load that is legal loads the machine, and no step has been taken before or after it. -/
theorem load_of_perform {image : List Byte} (hload : Session.perform gpr h (.load image) = some (h', reply)) :
    h.stepped = false ∧ h.machine.load image = some h'.machine ∧ h'.stepped = false := by
  cases hs : h.stepped with
  | true => cases (perform_load_of_stepped hs image).symm.trans hload
  | false =>
    rw [perform_load_of_not_stepped hs] at hload
    obtain ⟨s, hmachine, ⟨⟩⟩ := Option.map_eq_some_iff.1 hload
    exact ⟨rfl, hmachine, rfl⟩

/-- Any fuel above 0 sets the mark that a step has been taken (log entry 9). -/
theorem perform_run (fuel : Nat) :
    Session.perform gpr h (.run fuel) =
      some (⟨(run fuel h.machine).1, h.stepped || decide (0 < fuel)⟩, .ran (run fuel h.machine).2) := by
  have hmark : (fuel != 0) = decide (0 < fuel) := Bool.eq_iff_iff.2 (by simp [Nat.pos_iff_ne_zero])
  rw [Session.perform, hmark]

/-- Only a reset clears the mark that a step has been taken (R240, R241). -/
theorem perform_keeps_stepped {command : HostCommand}
    (hperform : Session.perform gpr h command = some (h', reply)) (hcommand : command ≠ .reset)
    (hstepped : h.stepped = true) : h'.stepped = true := by
  cases command with
  | reset => exact absurd rfl hcommand
  | load image =>
    obtain ⟨hnot, -⟩ := load_of_perform hperform
    cases hstepped.symm.trans hnot
  | step =>
    cases hperform
    rfl
  | run fuel =>
    cases hperform
    simp [hstepped]
  | inspect =>
    cases hperform
    exact hstepped

end

/-! ### The statements of 70_reset_and_hazards.md -/

/-- Settles O1: memory is empty, and the register file is `GPR_RESET` with SP's value behind it. -/
theorem resetLeavesSpecifiedState : Obligations.ResetLeavesSpecifiedState := fun gpr =>
  ⟨fun addr => Memory.read_nil addr.toNat, fun _ hk => resetWith_reg_below gpr _ hk, resetWith_reg_sp gpr _,
    rfl, rfl, rfl, rfl, rfl⟩

/-- Settles O49: the image is written over memory that reads 0 everywhere. -/
theorem loadPlacesTheImage : Obligations.LoadPlacesTheImage := by
  intro gpr image
  refine ⟨fun hfits => ⟨_, load_of_fits _ hfits, rfl, fun addr => ?_⟩, load_of_long _⟩
  have hread := read_writeBytes image Memory.wf_nil (n := 0) (by omega) addr.toNat
  rwa [if_pos (Nat.zero_le _), Memory.read_nil, Nat.sub_zero] at hread

/-- Settles O51, by induction on the fuel of the first run. -/
theorem runRepeatsStepUntilTerminal : Obligations.RunRepeatsStepUntilTerminal := fun s m n =>
  ⟨run_add m n s, run_outOfFuel_iff m s, fun hs => run_of_stopped hs m,
    fun _ hs ht => by rw [run_of_running hs, stepState_of_next ht]⟩

/-- Settles O50, operation by operation. -/
theorem loadIsLegalOnlyBeforeFirstStep : Obligations.LoadIsLegalOnlyBeforeFirstStep := by
  intro gpr h
  refine ⟨rfl, rfl, fun _ => perform_load_isSome, fun image h' reply hload => ?_, ⟨_, _, rfl, rfl⟩,
    fun fuel => ⟨_, _, perform_run fuel, rfl⟩, ⟨_, rfl⟩, fun _ _ _ => perform_keeps_stepped⟩
  obtain ⟨hbefore, hmachine, hafter⟩ := load_of_perform hload
  exact ⟨hmachine, hafter.trans hbefore.symm⟩

end Sys2Proof.Proofs
